-- ==== Sys2Proof/Word.lean ====
section
/-! DEFINITION. The fixed-width values of the block (00_scope R7, R8, R11). -/

namespace Sys2Proof

/-- bits(1): one codec data bit. -/
abbrev Bit := BitVec 1

/-- bits(8): one carrier byte (10_state R34). -/
abbrev Byte := BitVec 8

/-- bits(16): one payload code unit, CHAR_W = 16 (00_scope R8). -/
abbrev CodeUnit := BitVec 16

/-- bits(32): one register, LEN_W = 32 (00_scope R7, 10_state R21). -/
abbrev Word := BitVec 32

end Sys2Proof
end

