-- ==== Sys2Proof/Config.lean ====
section
/-! DEFINITION. What a build of the block fixes (00_scope R9, R10), and the values the spec leaves unspecified. -/

namespace Sys2Proof

/-- The four parameters a model takes as arguments (00_scope R9, R10; 10_state R36).
A RAM_INIT function on `[0, DEPTH)` is written as a list of (index, value) pairs; an index the list does not
name has the value 0 (log entry 13). `wf` says which parameter values the spec admits. -/
structure Config where
  /-- CAR_DEPTH, the size of the carrier memory in bytes. -/
  carDepth : Nat
  /-- PAY_DEPTH, the size of the payload memory in 16-bit entries. -/
  payDepth : Nat
  /-- RAM_INIT_CAR, the carrier memory at power-on. -/
  ramInitCar : List (Nat × Byte)
  /-- RAM_INIT_PAY, the payload memory at power-on. -/
  ramInitPay : List (Nat × CodeUnit)
deriving DecidableEq, Repr

/-- The bounds of 00_scope R9. RAM_INIT_CAR and RAM_INIT_PAY have no constraint (R10). -/
def Config.wf (c : Config) : Bool :=
  decide (c.carDepth < 4294967296) && decide (c.payDepth < 4294967296)

/-- A free value: what the n-th unspecified register read returns (43_host_interface R161, R169; 93 U10). -/
opaque Config.unspecifiedWord : Nat → Word

/-- A free value: what the n-th unspecified CarRead returns (43_host_interface R165, R169; 93 U11). -/
opaque Config.unspecifiedByte : Nat → Byte

/-- A free value: what the n-th unspecified PayRead returns (43_host_interface R167, R169; 93 U11). -/
opaque Config.unspecifiedEntry : Nat → CodeUnit

/-- The parameter values of State.reset, those of the spec's test vectors (95, Conventions), with a cleared
RAM_INIT (DESIGN CHOICE, log entry 2). A claim about every state does not depend on them. -/
def Config.atReset : Config :=
  { carDepth := 64, payDepth := 4, ramInitCar := [], ramInitPay := [] }

end Sys2Proof
end

