-- ==== Sys2Proof/Syntax.lean ====
section
/-! DEFINITION. The command set (30_encoding R71, opcode_table.json). -/

namespace Sys2Proof

/-- The two commands of the block. A command word carries no operand field (30_encoding R73). -/
inductive Instr where
  /-- ENCODE, 41_encode R120. -/
  | encode
  /-- DECODE, 42_decode R140. -/
  | decode
deriving DecidableEq, Repr

end Sys2Proof
end

