-- ==== Sys2Proof/WellFormed.lean ====
section
/-! DEFINITION. The fields of a command word and what makes one well formed (30_encoding R70 to R72). -/

namespace Sys2Proof

/-- The two fields of a 32-bit command word (30_encoding R70). -/
structure CommandFields where
  /-- OP, bits 3:0. -/
  op : BitVec 4
  /-- RES, bits 31:4. -/
  res : BitVec 28
deriving DecidableEq, Repr

/-- RES "reserved; must be zero" (30_encoding R70). -/
def CommandFields.resIsZero (f : CommandFields) : Bool := f.res == 0

/-- OP selects a command: 0x1 or 0x2 (30_encoding R71). -/
def CommandFields.opIsKnown (f : CommandFields) : Bool := f.op == 1 || f.op == 2

/-- The word selects a command (30_encoding R71); every other word is illegal (R72). -/
def CommandFields.wf (f : CommandFields) : Bool := f.resIsZero && f.opIsKnown

/-- A command has no operand field (30_encoding R73), so each constructor is well formed as it stands. -/
def Instr.wf : Instr → Bool
  | .encode => true
  | .decode => true

end Sys2Proof
end

