-- ==== Sys2Proof/Decode.lean ====
section
/-! DEFINITION. Decoding and encoding of command words (30_encoding R70 to R74). A command word is one whole
32-bit value of a RegWrite to CMD, so no byte order applies to it (20_memory R54). -/

namespace Sys2Proof

/-- Why a word is illegal (30_encoding R72). Both give ILLEGAL_COMMAND; a word with both faults is named after
RES (log entry 11). -/
inductive Reject where
  /-- RES != 0. -/
  | reservedBitsSet (res : BitVec 28)
  /-- RES = 0 and OP = 0x0 or OP in 0x3 to 0xF. -/
  | reservedOp (op : BitVec 4)
deriving DecidableEq, Repr

/-- What the decoder reads from a word. -/
inductive Decoded where
  | command (i : Instr)
  | illegal (r : Reject)
deriving DecidableEq, Repr

/-- The fields of a word: OP = bits 3:0, RES = bits 31:4 (30_encoding R70). -/
def fieldsOf (w : Word) : CommandFields :=
  { op := w.extractLsb' 0 4, res := w.extractLsb' 4 28 }

/-- The word with the given fields (30_encoding R70). -/
def CommandFields.word (f : CommandFields) : Word := f.res ++ f.op

/-- The decoder: exact match on all 32 bits (30_encoding R71, R72, R74). -/
def decode (w : Word) : Decoded :=
  if (fieldsOf w).res ≠ 0 then .illegal (.reservedBitsSet (fieldsOf w).res)
  else if (fieldsOf w).op = 1 then .command .encode
  else if (fieldsOf w).op = 2 then .command .decode
  else .illegal (.reservedOp (fieldsOf w).op)

/-- The fields of a command's word (30_encoding R71). -/
def Instr.fields : Instr → CommandFields
  | .encode => { op := 1, res := 0 }
  | .decode => { op := 2, res := 0 }

/-- The encoder: the word that selects a command (30_encoding R71). -/
def encode (i : Instr) : Word := i.fields.word

/-- The command of a decoded word, if it is one. -/
def Decoded.instr? : Decoded → Option Instr
  | .command i => some i
  | .illegal _ => none

/-- The 32-bit value written to CMD for a table word: the bits above `nbits` are 0. The spec has words of exactly
32 bits only (30_encoding R74), so what a shorter one stands for is the model's choice (DESIGN CHOICE, log entry 14). -/
def commandWord (nbits w : Nat) : Word := BitVec.ofNat 32 (w % 2 ^ nbits)

/-- What the decoder reads from a table word. Every command word is exactly 32 bits (30_encoding R74): fewer bits are
extended with zeros, and more are refused (DESIGN CHOICE, log entry 14). -/
def decodeTableWord (nbits w : Nat) : Option Instr :=
  if nbits ≤ 32 then (decode (commandWord nbits w)).instr? else none

end Sys2Proof
end

