-- ==== Sys2Proof/Machine/Operands.lean ====
section
/-! DEFINITION. The combinational functions of the four datapath sub-units (40_datapath_units R100 to R109).
Addresses are unbounded integers (00_scope R12); the header and character indices are typed by their ranges. -/

namespace Sys2Proof.Machine

/-- HdrSlot of `bit_slot_address_unit` (40_datapath_units R100). -/
def hdrSlot (L : Int) (k : Fin 32) : Int := L - 1 - k.val

/-- PaySlot of `bit_slot_address_unit` (40_datapath_units R101). -/
def paySlot (L : Int) (i : Nat) (j : Fin 8) : Int := L - 1 - i * 8 - j.val - 32

/-- HdrBit of `length_header_packer`: `n[k]` (40_datapath_units R104). -/
def hdrBit (n : Word) (k : Fin 32) : Bit := BitVec.ofBool (n.getLsbD k.val)

/-- HdrAcc of `length_header_packer` (40_datapath_units R105). -/
def hdrAcc (acc : Word) (b : Bit) (k : Fin 32) : Word := acc ||| (b.setWidth 32 <<< k.val)

/-- Insert of `payload_bit_inserter` (40_datapath_units R106). -/
def insertBit (byte : Byte) (v : Bit) : Byte := (byte &&& 0xFE#8) ||| v.setWidth 8

/-- CharBit of `payload_bit_inserter`: `c[j]` (40_datapath_units R107). -/
def charBit (c : CodeUnit) (j : Fin 8) : Bit := BitVec.ofBool (c.getLsbD j.val)

/-- Extract of `payload_bit_extractor`: `byte[0]` (40_datapath_units R108). -/
def extractBit (byte : Byte) : Bit := BitVec.ofBool (byte.getLsbD 0)

/-- CharAcc of `payload_bit_extractor` (40_datapath_units R109). -/
def charAcc (acc : Byte) (b : Bit) (j : Fin 8) : Byte := acc ||| (b.setWidth 8 <<< j.val)

/-- CharOut of `payload_bit_extractor` (40_datapath_units R109). -/
def charOut (acc : Byte) : CodeUnit := acc.setWidth 16

end Sys2Proof.Machine
end

