-- ==== Sys2Proof/Machine/State.lean ====
section
/-! DEFINITION. The state of one block instance (10_state R20 to R38), the host's transactions (43_host_interface
R160), and the reasons a step of the model can stop. -/

namespace Sys2Proof.Machine

/-- st.PHASE: which loop is running (10_state R30). -/
inductive Phase where
  | idle
  | encHdr
  | encPay
  | decHdr
  | decPay
deriving DecidableEq, Repr

/-- The result codes of STATUS.RESULT that are ever produced (10_state R24). -/
inductive Result where
  | none
  | ok
  | empty
  | capacityExceeded
  | outOfBounds
  | illegalCommand
  | badConfig
deriving DecidableEq, Repr

/-- The causes of STATUS.FAULT_CAUSE that are ever produced (10_state R25). -/
inductive FaultCause where
  | none
  | hazard
  | badReg
  | badAddr
deriving DecidableEq, Repr

/-- The six host transactions (43_host_interface R160). A register index, carrier offset or payload index is any
integer >= 0. -/
inductive Transaction where
  | regRead (idx : Nat)
  | regWrite (idx : Nat) (v : Word)
  | carRead (a : Nat)
  | carWrite (a : Nat) (v : Byte)
  | payRead (n : Nat)
  | payWrite (n : Nat) (v : CodeUnit)
deriving DecidableEq, Repr

/-- What the next step of a run is (00_scope R14): a host transaction, a BLOCK step, or the reset input
(70_reset_and_hazards R210). -/
inductive Event where
  | host (t : Transaction)
  | block
  | reset
deriving DecidableEq, Repr

/-- The value a read transaction returns to the host (43_host_interface R160), with what was read. -/
inductive Reply where
  | reg (idx : Nat) (v : Word)
  | car (a : Nat) (v : Byte)
  | pay (n : Nat) (v : CodeUnit)
deriving DecidableEq, Repr

/-- CAR as (offset, byte) pairs in canonical form (`Memory.wf` of Ops.lean). -/
abbrev CarMemory := List Host.Cell

/-- PAY as (index, entry) pairs in canonical form (`Memory.wf` of Ops.lean). -/
abbrev PayMemory := List (Nat × CodeUnit)

/-- Why the model stops with a fault. Neither is reached from a state that meets `State.Inv`: "The block calls them
only with an index that satisfies the requirement" (20_memory R52). The host's own errors are no stops: they are the
sticky FAULT of the state (60_exceptions R188). -/
inductive Fault where
  /-- MemRead or MemWrite at an offset outside `[0, CAR_DEPTH)`. Raised by the slot steps; safe (log entry 6). -/
  | carAccessOutside
  /-- PayRead or PayWrite at an index outside `[0, PAY_DEPTH)`. Raised by the payload steps; safe (log entry 6). -/
  | payAccessOutside
deriving DecidableEq, Repr

/-- Why the model refuses a step. -/
inductive Refusal where
  /-- An instruction without a meaning, raised by `exec` only; safe. Every instruction has its meaning. -/
  | notModelled (mnemonic : String)
deriving DecidableEq, Repr

/-- One block instance (10_state R20), its configuration (R36), and the model's own fields. -/
structure State where
  /-- CAR_DEPTH, PAY_DEPTH, RAM_INIT_CAR and RAM_INIT_PAY: fixed, not state of the block (10_state R36; log entry 1). -/
  cfg : Config
  /-- st.PHASE (10_state R30). -/
  phase : Phase
  /-- st.K, the header bit index of the next header step (10_state R30). -/
  k : Fin 32
  /-- st.I, the character index of the next payload step (10_state R30). -/
  i : Fin 4294967296
  /-- st.J, the bit index of the next payload step (10_state R30). -/
  j : Fin 8
  /-- st.HACC (10_state R31). -/
  hacc : Word
  /-- st.CACC (10_state R31). -/
  cacc : Byte
  /-- st.FAULT, STATUS bit 1 (10_state R23). -/
  fault : Bool
  /-- st.FAULT_CAUSE, STATUS bits 11:8 (10_state R25). -/
  faultCause : FaultCause
  /-- st.RESULT, STATUS bits 7:4 (10_state R24). -/
  result : Result
  /-- CAR_LEN (10_state R26). -/
  carLen : Word
  /-- PAY_LEN (10_state R27). -/
  payLen : Word
  /-- HDR (10_state R28). -/
  hdr : Word
  /-- CAR (10_state R34). -/
  car : CarMemory
  /-- PAY (10_state R34). -/
  pay : PayMemory
  /-- The model's own: the events still to come, the next one first (log entry 3). -/
  inputs : List Event
  /-- The model's own: the values returned to the host so far, newest first (log entry 4). -/
  replies : List Reply
  /-- The model's own: how many unspecified values have been drawn (log entry 5). -/
  draws : Nat
deriving DecidableEq, Repr

/-- The power-on reset state of a block with the given parameters, "the initial state of every model run"
(10_state R35, 70_reset_and_hazards R210). Nothing is listed in CAR and PAY, so they read as RAM_INIT_CAR and
RAM_INIT_PAY. -/
def State.powerOn (cfg : Config) : State :=
  { cfg := cfg
    phase := .idle
    k := 0
    i := 0
    j := 0
    hacc := 0
    cacc := 0
    fault := false
    faultCause := .none
    result := .none
    carLen := 0
    payLen := 0
    hdr := 0
    car := []
    pay := []
    inputs := []
    replies := []
    draws := 0 }

/-- The machine right after power-on reset (10_state R35), with one choice of the parameters (log entry 2). -/
def State.reset : State := State.powerOn Config.atReset

end Sys2Proof.Machine
end

