-- ==== Sys2Proof/Machine/Flags.lean ====
section
/-! DEFINITION. The STATUS register (10_state R23 to R25) and the top-level comparators (40_datapath_units R110,
R112). -/

namespace Sys2Proof.Machine

/-- The RESULT code of 10_state R24. -/
def Result.code : Result → BitVec 4
  | .none => 0
  | .ok => 1
  | .empty => 2
  | .capacityExceeded => 3
  | .outOfBounds => 4
  | .illegalCommand => 5
  | .badConfig => 6

/-- The FAULT_CAUSE code of 10_state R25. -/
def FaultCause.code : FaultCause → BitVec 4
  | .none => 0
  | .hazard => 1
  | .badReg => 2
  | .badAddr => 3

/-- STATUS.BUSY: PHASE != IDLE (10_state R23, R30). -/
def State.busy (s : State) : Bool := decide (s.phase ≠ .idle)

/-- The value of STATUS (10_state R23). -/
def State.status (s : State) : Word :=
  (s.faultCause.code.setWidth 32 <<< 8) ||| (s.result.code.setWidth 32 <<< 4)
    ||| ((BitVec.ofBool s.fault).setWidth 32 <<< 1) ||| (BitVec.ofBool s.busy).setWidth 32

/-- Fits, in exact arithmetic (40_datapath_units R110). -/
def fits (L c : Nat) : Bool := decide (32 + 8 * c ≤ L)

/-- InDepth (40_datapath_units R112). -/
def inDepth (cfg : Config) (L c : Nat) : Bool := decide (L ≤ cfg.carDepth) && decide (c ≤ cfg.payDepth)

end Sys2Proof.Machine
end

