-- ==== Sys2Proof/Machine/Ops.lean ====
section
/-! DEFINITION. The named operations over memory, registers and status: the canonical memory, the block's access
primitives (20_memory R52), recording a result or a fault (60_exceptions R180, R188), leaving both by reset
(70_reset_and_hazards R210), and the guard of every host transaction but RegRead (60_exceptions R191). -/

namespace Sys2Proof.Machine

/-! ## Memory in canonical form (log entry 13) -/

/-- The value listed for an index, if there is one. -/
def Memory.find {w : Nat} : List (Nat × BitVec w) → Nat → Option (BitVec w)
  | [], _ => none
  | (b, x) :: m, a => if b = a then some x else Memory.find m a

/-- What an index that memory does not list reads as: its RAM_INIT value (20_memory R66). An index that the RAM_INIT
list does not name has the value 0. -/
def Memory.unlisted {w : Nat} (init : List (Nat × BitVec w)) (a : Nat) : BitVec w :=
  (Memory.find init a).getD 0

/-- The value at an index: the latest write, or the RAM_INIT value (20_memory R59, R66). -/
def Memory.read {w : Nat} (init m : List (Nat × BitVec w)) (a : Nat) : BitVec w :=
  (Memory.find m a).getD (Memory.unlisted init a)

/-- A list of at most one pair: none for the value an unlisted index reads as. -/
def Memory.entry {w : Nat} (init : List (Nat × BitVec w)) (a : Nat) (v : BitVec w) : List (Nat × BitVec w) :=
  if v = Memory.unlisted init a then [] else [(a, v)]

/-- Write one element, keeping the canonical form. -/
def Memory.write {w : Nat} (init : List (Nat × BitVec w)) :
    List (Nat × BitVec w) → Nat → BitVec w → List (Nat × BitVec w)
  | [], a, v => Memory.entry init a v
  | (b, x) :: m, a, v =>
    if b < a then (b, x) :: Memory.write init m a v
    else if b = a then Memory.entry init a v ++ m
    else Memory.entry init a v ++ (b, x) :: m

/-- Every listed index is above `a`... -/
def Memory.above {w : Nat} (a : Nat) : List (Nat × BitVec w) → Bool
  | [] => true
  | (b, _) :: _ => decide (a < b)

/-- The canonical form: indices strictly rise, each lies below the memory's depth, and no listed value is the one an
unlisted index reads as. -/
def Memory.wf {w : Nat} (init : List (Nat × BitVec w)) (depth : Nat) : List (Nat × BitVec w) → Bool
  | [] => true
  | (b, x) :: m =>
    Memory.above b m && decide (b < depth) && decide (x ≠ Memory.unlisted init b) && Memory.wf init depth m

/-- CAR[a], for a in [0, CAR_DEPTH) (10_state R34). -/
def State.carAt (s : State) (a : Nat) : Byte := Memory.read s.cfg.ramInitCar s.car a

/-- PAY[n], for n in [0, PAY_DEPTH) (10_state R34). -/
def State.payAt (s : State) (n : Nat) : CodeUnit := Memory.read s.cfg.ramInitPay s.pay n

/-- CAR[a] <- v. -/
def State.setCar (s : State) (a : Nat) (v : Byte) : State :=
  { s with car := Memory.write s.cfg.ramInitCar s.car a v }

/-- PAY[n] <- v. -/
def State.setPay (s : State) (n : Nat) (v : CodeUnit) : State :=
  { s with pay := Memory.write s.cfg.ramInitPay s.pay n v }

/-! ## The block's access primitives (20_memory R52) -/

/-- `0 <= a < CAR_DEPTH`. -/
def State.inCar (s : State) (a : Int) : Bool := decide (0 ≤ a) && decide (a < s.cfg.carDepth)

/-- MemRead(a, 1). -/
def memRead (s : State) (a : Int) : Option Byte := if s.inCar a then some (s.carAt a.toNat) else none

/-- MemWrite(a, 1, v). -/
def memWrite (s : State) (a : Int) (v : Byte) : Option State :=
  if s.inCar a then some (s.setCar a.toNat v) else none

/-- PayRead(n). -/
def payRead (s : State) (n : Nat) : Option CodeUnit := if n < s.cfg.payDepth then some (s.payAt n) else none

/-- PayWrite(n, v). -/
def payWrite (s : State) (n : Nat) (v : CodeUnit) : Option State :=
  if n < s.cfg.payDepth then some (s.setPay n v) else none

/-! ## Results, faults and reset -/

/-- raise RESULT(code) of a rejected command: only RESULT changes (60_exceptions R181 to R184). -/
def raiseResult (r : Result) (s : State) : State := { s with result := r }

/-- finish(code): complete a running command (00_scope R13). -/
def finish (r : Result) (s : State) : State := { s with result := r, phase := .idle }

/-- raise FAULT(cause): record the first fault and halt; everything else is left as it is (60_exceptions R188). -/
def raiseFault (c : FaultCause) (s : State) : State :=
  if s.fault then s else { s with fault := true, faultCause := c }

/-- A reset after power-on, the only way out of a fault: every element at its value of 10_state R35, CAR and PAY kept
(70_reset_and_hazards R210, R211). -/
def assertReset (s : State) : State :=
  { s with
    phase := .idle
    k := 0
    i := 0
    j := 0
    hacc := 0
    cacc := 0
    fault := false
    faultCause := .none
    result := .none
    carLen := 0
    payLen := 0
    hdr := 0 }

/-- The checks before every transaction but RegRead: the halt rule, then the hazard rule (43_host_interface R160,
R169; 60_exceptions R185, R191). `act` is what the transaction does on an idle block without a fault. -/
def guarded (act : State → State) (s : State) : State :=
  if s.fault then s
  else if s.busy then raiseFault .hazard s
  else act s

/-! ## Registers and replies -/

/-- The value of a mapped register (10_state R21, R22; 43_host_interface R161). -/
def State.regValue? (s : State) (idx : Nat) : Option Word :=
  if idx = 0 then some 0
  else if idx = 1 then some s.status
  else if idx = 2 then some s.carLen
  else if idx = 3 then some s.payLen
  else if idx = 4 then some s.hdr
  else none

/-- ConfigWrite, or BAD_REG for a register that is read-only or unmapped (43_host_interface R162, R164). -/
def configWrite (idx : Nat) (v : Word) (s : State) : State :=
  if idx = 2 then { s with carLen := v }
  else if idx = 3 then { s with payLen := v }
  else raiseFault .badReg s

/-- Return a value to the host (43_host_interface R160). -/
def answer (r : Reply) (s : State) : State := { s with replies := r :: s.replies }

/-- Return an unspecified bits(32), a fresh draw (43_host_interface R161). -/
def answerUnspecifiedReg (idx : Nat) (s : State) : State :=
  answer (.reg idx (Config.unspecifiedWord s.draws)) { s with draws := s.draws + 1 }

/-- Return an unspecified bits(8), a fresh draw (43_host_interface R165). -/
def answerUnspecifiedCar (a : Nat) (s : State) : State :=
  answer (.car a (Config.unspecifiedByte s.draws)) { s with draws := s.draws + 1 }

/-- Return an unspecified bits(16), a fresh draw (43_host_interface R167). -/
def answerUnspecifiedPay (n : Nat) (s : State) : State :=
  answer (.pay n (Config.unspecifiedEntry s.draws)) { s with draws := s.draws + 1 }

end Sys2Proof.Machine
end

