-- ==== Sys2Proof/Machine/DecodeCommand.lean ====
section
/-! DEFINITION. DECODE: its start (42_decode R141), its two BLOCK steps (R142, R144), the header evaluation (R143) and
the completion (R145). -/

namespace Sys2Proof.Machine

/-- DecodeStart (42_decode R141). -/
def decodeStart (s : State) : State :=
  if !inDepth s.cfg s.carLen.toNat 0 then raiseResult .badConfig s
  else if !fits s.carLen.toNat 0 then raiseResult .outOfBounds s
  else { s with result := .none, k := 0, i := 0, j := 0, hacc := 0, cacc := 0, phase := .decHdr }

/-- DECODE, the RegWrite of 0x00000002 to CMD (42_decode R140): halt rule, hazard rule, then the start
(43_host_interface R162, R163). An accepted DECODE goes on by the BLOCK steps below (log entry 10). -/
def execDecode (s : State) : Host.Outcome State Fault Refusal := .next (guarded decodeStart s)

/-- DecodeHeaderEvaluate (42_decode R143): the header is unsigned. -/
def decodeHeaderEvaluate (s : State) : State :=
  if s.hacc.toNat = 0 then finish .empty { s with hdr := 0, payLen := 0 }
  else if !fits s.carLen.toNat s.hacc.toNat || decide (s.cfg.payDepth < s.hacc.toNat) then
    finish .outOfBounds { s with hdr := s.hacc }
  else { s with phase := .decPay, i := 0, j := 0, cacc := 0 }

/-- Where the sequencer goes after the header bit of this step is accumulated (42_decode R142). -/
def decodeHeaderAdvance (s : State) : State :=
  if s.k.val < 31 then { s with k := s.k + 1 } else decodeHeaderEvaluate s

/-- DecodeHeaderStep (42_decode R142). -/
def decodeHeaderStep (s : State) : Host.Outcome State Fault Refusal :=
  match memRead s (hdrSlot s.carLen.toNat s.k) with
  | none => .fault .carAccessOutside
  | some b => .next (decodeHeaderAdvance { s with hacc := hdrAcc s.hacc (extractBit b) s.k })

/-- DecodeComplete (42_decode R145). -/
def decodeComplete (s : State) : State := finish .ok { s with hdr := s.hacc, payLen := s.hacc }

/-- Where the sequencer goes after character i is written (42_decode R144). -/
def decodePayloadAdvance (s : State) : State :=
  if s.i.val + 1 < s.hacc.toNat then { s with cacc := 0, i := s.i + 1, j := 0 }
  else decodeComplete { s with cacc := 0 }

/-- What a payload step does with the accumulated bits `acc`: keep them, or write the character at its eighth bit
(42_decode R144). -/
def decodePayloadStore (acc : Byte) (s : State) : Host.Outcome State Fault Refusal :=
  if s.j.val < 7 then .next { s with cacc := acc, j := s.j + 1 }
  else
    match payWrite s s.i.val (charOut acc) with
    | none => .fault .payAccessOutside
    | some s' => .next (decodePayloadAdvance s')

/-- DecodePayloadStep (42_decode R144). -/
def decodePayloadStep (s : State) : Host.Outcome State Fault Refusal :=
  match memRead s (paySlot s.carLen.toNat s.i.val s.j) with
  | none => .fault .carAccessOutside
  | some b => decodePayloadStore (charAcc s.cacc (extractBit b) s.j) s

end Sys2Proof.Machine
end

