-- ==== Sys2Proof/Machine/EncodeCommand.lean ====
section
/-! DEFINITION. ENCODE: its start (41_encode R121), its two BLOCK steps (R122, R123) and its completion (R124). -/

namespace Sys2Proof.Machine

/-- EncodeStart (41_encode R121): both checks run before any memory access. -/
def encodeStart (s : State) : State :=
  if !inDepth s.cfg s.carLen.toNat s.payLen.toNat then raiseResult .badConfig s
  else if !fits s.carLen.toNat s.payLen.toNat then raiseResult .capacityExceeded s
  else { s with result := .none, k := 0, i := 0, j := 0, phase := .encHdr }

/-- ENCODE, the RegWrite of 0x00000001 to CMD (41_encode R120): halt rule, hazard rule, then the start
(43_host_interface R162, R163). An accepted ENCODE goes on by the BLOCK steps below (log entry 10). -/
def execEncode (s : State) : Host.Outcome State Fault Refusal := .next (guarded encodeStart s)

/-- An encode slot step's read-modify-write of one carrier byte: one MemRead, then one MemWrite to the same offset
(20_memory R53). -/
def insertAt (s : State) (a : Int) (v : Bit) : Option State :=
  match memRead s a with
  | none => none
  | some b => memWrite s a (insertBit b v)

/-- EncodeComplete (41_encode R124). -/
def encodeComplete (s : State) : State := finish .ok { s with hdr := s.payLen }

/-- Where the sequencer goes after the header bit of this step is written (41_encode R122). -/
def encodeHeaderAdvance (s : State) : State :=
  if s.k.val < 31 then { s with k := s.k + 1 }
  else if s.payLen.toNat = 0 then encodeComplete s
  else { s with phase := .encPay, i := 0, j := 0 }

/-- EncodeHeaderStep (41_encode R122). -/
def encodeHeaderStep (s : State) : Host.Outcome State Fault Refusal :=
  match insertAt s (hdrSlot s.carLen.toNat s.k) (hdrBit s.payLen s.k) with
  | none => .fault .carAccessOutside
  | some s' => .next (encodeHeaderAdvance s')

/-- Where the sequencer goes after the character bit of this step is written (41_encode R123). -/
def encodePayloadAdvance (s : State) : State :=
  if s.j.val < 7 then { s with j := s.j + 1 }
  else if s.i.val + 1 < s.payLen.toNat then { s with i := s.i + 1, j := 0 }
  else encodeComplete s

/-- EncodePayloadStep (41_encode R123). -/
def encodePayloadStep (s : State) : Host.Outcome State Fault Refusal :=
  match payRead s s.i.val with
  | none => .fault .payAccessOutside
  | some c =>
    match insertAt s (paySlot s.carLen.toNat s.i.val s.j) (charBit c s.j) with
    | none => .fault .carAccessOutside
    | some s' => .next (encodePayloadAdvance s')

end Sys2Proof.Machine
end

