-- ==== Sys2Proof/Machine/Sequencer.lean ====
section
/-! DEFINITION. The BLOCK agent: one sequencer step (00_scope R14, 10_state R32). -/

namespace Sys2Proof.Machine

/-- A BLOCK step "is enabled only while `st.PHASE != IDLE` and `st.FAULT = 0`" (00_scope R14). -/
def State.blockEnabled (s : State) : Bool := s.busy && !s.fault

/-- The BLOCK step of the running phase; with no phase running there is none. -/
def phaseStep (s : State) : Host.Outcome State Fault Refusal :=
  match s.phase with
  | .idle => .next s
  | .encHdr => encodeHeaderStep s
  | .encPay => encodePayloadStep s
  | .decHdr => decodeHeaderStep s
  | .decPay => decodePayloadStep s

/-- A turn of the BLOCK agent: its step if it is enabled, and nothing if it is not (log entry 3). -/
def blockTurn (s : State) : Host.Outcome State Fault Refusal :=
  if s.blockEnabled then phaseStep s else .next s

end Sys2Proof.Machine
end

