-- ==== Sys2Proof/Machine/HostPort.lean ====
section
/-! DEFINITION. The host transactions (43_host_interface R160 to R169), and how a step takes its next event. -/

namespace Sys2Proof.Machine

/-- RegRead (43_host_interface R161): at any time, also while BUSY = 1 or FAULT = 1. -/
def hostRegRead (idx : Nat) (s : State) : State :=
  match s.regValue? idx with
  | some v => answer (.reg idx v) s
  | none => answerUnspecifiedReg idx (raiseFault .badReg s)

/-- CommandWrite of a word that is no command (43_host_interface R163; 60_exceptions R184). -/
def illegalCommand (s : State) : State := raiseResult .illegalCommand s

/-- RegWrite to CMD (43_host_interface R162, R163): a command word runs its command, any other word is illegal. -/
def hostCommandWrite (w : Word) (s : State) : Host.Outcome State Fault Refusal :=
  match decode w with
  | .command i => exec i s
  | .illegal _ => .next (guarded illegalCommand s)

/-- RegWrite (43_host_interface R162). -/
def hostRegWrite (idx : Nat) (v : Word) (s : State) : Host.Outcome State Fault Refusal :=
  if idx = 0 then hostCommandWrite v s else .next (guarded (configWrite idx v) s)

/-- CarRead (43_host_interface R165). -/
def hostCarRead (a : Nat) (s : State) : State :=
  if !s.fault && !s.busy && decide (a < s.cfg.carDepth) then answer (.car a (s.carAt a)) s
  else answerUnspecifiedCar a (guarded (raiseFault .badAddr) s)

/-- What CarWrite does on an idle block without a fault (43_host_interface R166). -/
def carWriteIdle (a : Nat) (v : Byte) (s : State) : State :=
  if a < s.cfg.carDepth then s.setCar a v else raiseFault .badAddr s

/-- CarWrite (43_host_interface R166). -/
def hostCarWrite (a : Nat) (v : Byte) (s : State) : State := guarded (carWriteIdle a v) s

/-- PayRead (43_host_interface R167). -/
def hostPayRead (n : Nat) (s : State) : State :=
  if !s.fault && !s.busy && decide (n < s.cfg.payDepth) then answer (.pay n (s.payAt n)) s
  else answerUnspecifiedPay n (guarded (raiseFault .badAddr) s)

/-- What PayWrite does on an idle block without a fault (43_host_interface R168). -/
def payWriteIdle (n : Nat) (v : CodeUnit) (s : State) : State :=
  if n < s.cfg.payDepth then s.setPay n v else raiseFault .badAddr s

/-- PayWrite (43_host_interface R168). -/
def hostPayWrite (n : Nat) (v : CodeUnit) (s : State) : State := guarded (payWriteIdle n v) s

/-- One host transaction, atomic (43_host_interface R160). -/
def transact (t : Transaction) (s : State) : Host.Outcome State Fault Refusal :=
  match t with
  | .regRead idx => .next (hostRegRead idx s)
  | .regWrite idx v => hostRegWrite idx v s
  | .carRead a => .next (hostCarRead a s)
  | .carWrite a v => .next (hostCarWrite a v s)
  | .payRead n => .next (hostPayRead n s)
  | .payWrite n v => .next (hostPayWrite n v s)

/-- The event of the next step. With no input left the BLOCK agent has the turn, so that an enabled BLOCK step
eventually happens (weak fairness, 70_reset_and_hazards R217; log entry 3). -/
def State.nextEvent (s : State) : Event :=
  match s.inputs with
  | [] => .block
  | e :: _ => e

/-- The state with its next event taken off the inputs. -/
def State.takeEvent (s : State) : State := { s with inputs := s.inputs.tail }

/-- What an event does (00_scope R14, 70_reset_and_hazards R210). -/
def perform (e : Event) (s : State) : Host.Outcome State Fault Refusal :=
  match e with
  | .host t => transact t s
  | .block => blockTurn s
  | .reset => .next (assertReset s)

/-- The state whose next event is the host's write of a word to CMD (10_state R22). -/
def State.withCommand (s : State) (w : Word) : State :=
  { s with inputs := .host (.regWrite 0 w) :: s.inputs }

end Sys2Proof.Machine
end

