-- ==== Sys2Proof/Machine/Step.lean ====
section
/-! DEFINITION. One step of a run: the next event, performed. -/

namespace Sys2Proof.Machine

/-- One atomic step (00_scope R14): the next host transaction, BLOCK turn or reset. -/
def step (s : State) : Host.Outcome State Fault Refusal := perform s.nextEvent s.takeEvent

/-- Put a command word where the next step takes its instruction from: the block has no program counter (10_state R32),
and a command reaches it only as a RegWrite to CMD (20_memory R63; log entry 8). Fewer than 32 bits are extended with
zeros, and for more nothing is placed, as `decodeTableWord` refuses them (DESIGN CHOICE, log entry 14). -/
def State.withFetchWord (s : State) (nbits w : Nat) : State :=
  if nbits ≤ 32 then s.withCommand (commandWord nbits w) else s

end Sys2Proof.Machine
end

