-- ==== Sys2Proof/Machine/HostProgram.lean ====
section
/-! DEFINITION. The host notation (30_encoding R81, R82): host programs, their pseudo-instructions, and a HOST agent
that runs one against the block. The block decodes none of it. Names and labels are numbers here (log entry 12). -/

namespace Sys2Proof.Machine

/-- The condition of an IF: a bit field of a value the host holds, compared with a number. `s[0] = 1` has
hi = lo = 0; `s1[7:4] != 3` has hi = 7, lo = 4 and `equal := false`. -/
structure HostCond where
  name : Nat
  hi : Nat
  lo : Nat
  equal : Bool
  value : Nat
deriving DecidableEq, Repr

/-- One statement, one row of 30_encoding R81. -/
inductive HostStmt where
  | regw (idx : Nat) (v : Word)
  | regr (idx : Nat) (name : Nat)
  | carw (a : Nat) (v : Byte)
  | carr (a : Nat) (name : Nat)
  | payw (n : Nat) (v : CodeUnit)
  | payr (n : Nat) (name : Nat)
  | label (l : Nat)
  | ifGoto (c : HostCond) (l : Nat)
deriving DecidableEq, Repr

/-- A line of a program: a statement, or a pseudo-instruction of 30_encoding R82. -/
inductive HostLine where
  | stmt (x : HostStmt)
  | encode
  | decode
  | wait (name : Nat)
  | loadCar (a : Nat) (bytes : List Byte)
  | loadPay (n : Nat) (units : List CodeUnit)
  | fillCar (a : Nat) (m : Nat) (b : Byte)
deriving DecidableEq, Repr

/-- CARW of each byte in turn, from offset `a` on. -/
def expandLoadCar (a : Nat) : List Byte → List HostStmt
  | [] => []
  | b :: bs => .carw a b :: expandLoadCar (a + 1) bs

/-- PAYW of each code unit in turn, from index `n` on. -/
def expandLoadPay (n : Nat) : List CodeUnit → List HostStmt
  | [] => []
  | c :: cs => .payw n c :: expandLoadPay (n + 1) cs

/-- The expansion of one line, with `fresh` as WAIT's label (30_encoding R82). -/
def HostLine.expand (fresh : Nat) : HostLine → List HostStmt
  | .stmt x => [x]
  | .encode => [.regw 0 (Sys2Proof.encode Instr.encode)]
  | .decode => [.regw 0 (Sys2Proof.encode Instr.decode)]
  | .wait name => [.label fresh, .regr 1 name, .ifGoto { name := name, hi := 0, lo := 0, equal := true, value := 1 } fresh]
  | .loadCar a bytes => expandLoadCar a bytes
  | .loadPay n units => expandLoadPay n units
  | .fillCar a m b => expandLoadCar a (List.replicate m b)

/-- One more than the greatest label the lines write themselves. -/
def labelBound : List HostLine → Nat
  | [] => 0
  | .stmt (.label l) :: p => max (l + 1) (labelBound p)
  | .stmt (.ifGoto _ l) :: p => max (l + 1) (labelBound p)
  | _ :: p => labelBound p

/-- Expand line by line, each with a label of its own ("a fresh label w per use"). -/
def expandFrom (fresh : Nat) : List HostLine → List HostStmt
  | [] => []
  | x :: p => x.expand fresh ++ expandFrom (fresh + 1) p

/-- The statements of a program. -/
def assemble (p : List HostLine) : List HostStmt := expandFrom (labelBound p) p

/-- The transaction of a statement: the encoding column of 30_encoding R81. -/
def HostStmt.transaction? : HostStmt → Option Transaction
  | .regw idx v => some (.regWrite idx v)
  | .regr idx _ => some (.regRead idx)
  | .carw a v => some (.carWrite a v)
  | .carr a _ => some (.carRead a)
  | .payw n v => some (.payWrite n v)
  | .payr n _ => some (.payRead n)
  | .label _ => none
  | .ifGoto _ _ => none

/-- The name a read statement keeps its value under. -/
def HostStmt.keepsAs? : HostStmt → Option Nat
  | .regr _ name => some name
  | .carr _ name => some name
  | .payr _ name => some name
  | _ => none

/-- A HOST agent: its place in its program, and the values it holds under names, newest first. -/
structure HostAgent where
  place : Nat
  held : List (Nat × Nat)
deriving DecidableEq, Repr

/-- A block instance and the HOST agent that drives it. -/
structure HostSystem where
  agent : HostAgent
  block : State
deriving DecidableEq, Repr

/-- The value held under a name. -/
def heldValue : List (Nat × Nat) → Nat → Option Nat
  | [], _ => none
  | (m, v) :: h, name => if m = name then some v else heldValue h name

/-- Whether a condition holds; a name under which nothing is held makes it false (log entry 12). -/
def HostCond.holds (c : HostCond) (held : List (Nat × Nat)) : Bool :=
  match heldValue held c.name with
  | none => false
  | some v => ((v / 2 ^ c.lo % 2 ^ (c.hi + 1 - c.lo)) == c.value) == c.equal

/-- The value a reply carries. -/
def Reply.value : Reply → Nat
  | .reg _ v => v.toNat
  | .car _ v => v.toNat
  | .pay _ v => v.toNat

/-- Keep the newest reply under a name. -/
def HostAgent.keep (h : HostAgent) (name? : Option Nat) (replies : List Reply) : HostAgent :=
  match name?, replies with
  | some name, r :: _ => { h with held := (name, r.value) :: h.held }
  | _, _ => h

/-- The place of a label: the first one if it stands more than once, and the end of the program if it is nowhere.
Both are the model's choice (DESIGN CHOICE, log entry 12). -/
def labelPlace (p : List HostStmt) (l : Nat) : Nat := p.findIdx (· == .label l)

/-- The transaction of the statement at the agent's place, if it makes one. -/
def HostAgent.pending? (p : List HostStmt) (h : HostAgent) : Option Transaction :=
  p[h.place]?.bind HostStmt.transaction?

/-- Go past the label or the IF at the agent's place, which makes no transaction (30_encoding R81). At a transaction, and
past the end of the program, the agent stays. -/
def HostAgent.pass (p : List HostStmt) (h : HostAgent) : HostAgent :=
  match p[h.place]? with
  | some (.label _) => { h with place := h.place + 1 }
  | some (.ifGoto c l) => { h with place := if c.holds h.held then labelPlace p l else h.place + 1 }
  | _ => h

/-- Go past `m` labels and IFs, as long as the agent meets no transaction. -/
def HostAgent.passAll (p : List HostStmt) : Nat → HostAgent → HostAgent
  | 0, h => h
  | m + 1, h => HostAgent.passAll p m (h.pass p)

/-- The host's next transaction, if it has one. After as many labels and IFs as the program has statements without a
transaction, the agent has been at some place twice with the same values held, so it reaches none (log entry 15). -/
def HostAgent.nextTransaction? (p : List HostStmt) (h : HostAgent) : Option Transaction :=
  (h.passAll p p.length).pending? p

/-- Go past the transaction at the agent's place, and keep the value it returned under its statement's name. -/
def HostAgent.afterTransaction (p : List HostStmt) (replies : List Reply) (h : HostAgent) : HostAgent :=
  { h with place := h.place + 1 }.keep (p[h.place]?.bind HostStmt.keepsAs?) replies

/-- Perform an event as the block's next step. -/
def HostSystem.perform (y : HostSystem) (e : Event) (after : State → HostSystem) :
    Host.Outcome HostSystem Fault Refusal :=
  match step { y.block with inputs := e :: y.block.inputs } with
  | .next s => .next (after s)
  | .fault r => .fault r
  | .refused r => .refused r

/-- A HOST turn: the transaction at the agent's place, or the label or IF there (30_encoding R81). Past the end of the
program nothing happens. -/
def HostSystem.hostTurn (p : List HostStmt) (y : HostSystem) : Host.Outcome HostSystem Fault Refusal :=
  match y.agent.pending? p with
  | none => .next { y with agent := y.agent.pass p }
  | some t => y.perform (.host t) fun s => { agent := y.agent.afterTransaction p s.replies, block := s }

/-- Who moves: the host's program, the block, or the reset input. -/
inductive Turn where
  | host
  | block
  | reset
deriving DecidableEq, Repr

/-- One step of the host and the block together (00_scope R14). -/
def HostSystem.step (p : List HostStmt) (turn : Turn) (y : HostSystem) : Host.Outcome HostSystem Fault Refusal :=
  match turn with
  | .host => y.hostTurn p
  | .block => y.perform .block fun s => { y with block := s }
  | .reset => y.perform .reset fun s => { y with block := s }

end Sys2Proof.Machine
end

