-- ==== Sys2Proof/Safety.lean ====
section
/-! DEFINITION. Runs, their end and what is observed there (43_host_interface R171), and the invariant of the machine. -/

namespace Sys2Proof.Machine

/-- `m` steps of a run, stopping at the first fault or refusal of the model. -/
def run : Nat → State → Host.Outcome State Fault Refusal
  | 0, s => .next s
  | m + 1, s =>
    match step s with
    | .next s' => run m s'
    | .fault r => .fault r
    | .refused r => .refused r

/-- The next state of an outcome, if it is one. -/
def nextState? (o : Host.Outcome State Fault Refusal) : Option State :=
  match o with
  | .next s => some s
  | .fault _ => none
  | .refused _ => none

/-- The block is idle and not faulted: a CMD write then starts or rejects a command (43_host_interface R163). -/
abbrev State.ready (s : State) : Prop := s.phase = .idle ∧ s.fault = false

/-- The operands an ENCODE is accepted with (41_encode R121). -/
abbrev State.encodeAccepted (s : State) : Prop :=
  s.ready ∧ s.carLen.toNat ≤ s.cfg.carDepth ∧ s.payLen.toNat ≤ s.cfg.payDepth ∧
    32 + 8 * s.payLen.toNat ≤ s.carLen.toNat

/-- The operands a DECODE is accepted with (42_decode R141). -/
abbrev State.decodeAccepted (s : State) : Prop :=
  s.ready ∧ s.carLen.toNat ≤ s.cfg.carDepth ∧ 32 ≤ s.carLen.toNat

/-- The event is a host transaction: neither a BLOCK turn nor the reset input, which is separate from the transactions
(43_host_interface R160). -/
def Event.isTransaction : Event → Bool
  | .host _ => true
  | .block => false
  | .reset => false

/-- The end of a run of the block: (a) PHASE = IDLE, (b) the host has no further transaction, (c) FAULT = 0
(43_host_interface R171). The host's further transactions are those of the inputs. -/
def State.final (s : State) : Bool := !s.busy && !s.inputs.any Event.isTransaction && !s.fault

/-- The end of a run of the block with the host's program: the block's run has ended, and the program makes no further
transaction either (43_host_interface R171). -/
def HostSystem.final (p : List HostStmt) (y : HostSystem) : Bool :=
  y.block.final && (y.agent.nextTransaction? p).isNone

/-- CAR in full, from offset 0 to CAR_DEPTH - 1: RAM_INIT_CAR where nothing was written. -/
def State.carContents (s : State) : List Byte := (List.range s.cfg.carDepth).map s.carAt

/-- PAY in full, from index 0 to PAY_DEPTH - 1: RAM_INIT_PAY where nothing was written. -/
def State.payContents (s : State) : List CodeUnit := (List.range s.cfg.payDepth).map s.payAt

/-- What is observed at the end of a run: the final register values and the final memories (43_host_interface R171). -/
structure Observation where
  status : Word
  carLen : Word
  payLen : Word
  hdr : Word
  car : List Byte
  pay : List CodeUnit
deriving DecidableEq, Repr

/-- The observation of a state (43_host_interface R171). -/
def State.observation (s : State) : Observation :=
  { status := s.status
    carLen := s.carLen
    payLen := s.payLen
    hdr := s.hdr
    car := s.carContents
    pay := s.payContents }

/-- What holds of the operands in each phase: the checks of the command's start and of the header evaluation still
hold (20_memory R52, R58), the character index lies below the count, and RESULT is NONE while a command runs
(10_state R24). -/
abbrev State.PhaseInv (s : State) : Prop :=
  match s.phase with
  | .idle => True
  | .encHdr =>
    inDepth s.cfg s.carLen.toNat s.payLen.toNat = true ∧ fits s.carLen.toNat s.payLen.toNat = true ∧ s.result = .none
  | .encPay =>
    inDepth s.cfg s.carLen.toNat s.payLen.toNat = true ∧ fits s.carLen.toNat s.payLen.toNat = true ∧
      s.i.val < s.payLen.toNat ∧ s.result = .none
  | .decHdr => inDepth s.cfg s.carLen.toNat 0 = true ∧ fits s.carLen.toNat 0 = true ∧ s.result = .none
  | .decPay =>
    inDepth s.cfg s.carLen.toNat s.hacc.toNat = true ∧ fits s.carLen.toNat s.hacc.toNat = true ∧
      s.i.val < s.hacc.toNat ∧ s.result = .none

/-- The machine's invariant: parameters within their bounds (00_scope R9), both memories canonical and within their
depth, FAULT set exactly when a cause is recorded (10_state R25), and the phase's own part. -/
structure State.Inv (s : State) : Prop where
  cfg_wf : s.cfg.wf = true
  car_wf : Memory.wf s.cfg.ramInitCar s.cfg.carDepth s.car = true
  pay_wf : Memory.wf s.cfg.ramInitPay s.cfg.payDepth s.pay = true
  cause_iff : s.fault = true ↔ s.faultCause ≠ .none
  phase_inv : s.PhaseInv

end Sys2Proof.Machine
end

