-- ==== Sys2Proof/Certificates/Slice0/Obligations.lean ====
section
/-! DEFINITION. The statements about the block, from the numbered rules of spec/. -/

open Sys2Proof Sys2Proof.Machine

/-! ## Command words -/

/-- 30_encoding R71: ENCODE is the word 0x00000001 and DECODE the word 0x00000002, each matched on all 32 bits. -/
def Obligations.WordSelectsCommandExactlyByValue : Prop :=
  ∀ w : Word, (decode w = .command .encode ↔ w = 0x00000001#32) ∧ (decode w = .command .decode ↔ w = 0x00000002#32)

/-- Decoding an encoded well-formed command gives it back. -/
def Obligations.DecodeOfEncodeIsTheCommand : Prop :=
  ∀ i : Instr, i.wf = true → decode (encode i) = .command i

/-- The words CW1 to CW8 of the test vectors. -/
def Obligations.SampleWordsDecode : Prop :=
  decode 0x00000001#32 = .command .encode ∧ decode 0x00000002#32 = .command .decode ∧
    decode 0x00000000#32 = .illegal (.reservedOp 0) ∧ decode 0x00000003#32 = .illegal (.reservedOp 3) ∧
    decode 0x0000000F#32 = .illegal (.reservedOp 15) ∧ decode 0x00000011#32 = .illegal (.reservedBitsSet 1) ∧
    decode 0x80000001#32 = .illegal (.reservedBitsSet 0x8000000) ∧
    decode 0xFFFFFFFF#32 = .illegal (.reservedBitsSet 0xFFFFFFF)

/-- 60_exceptions R184: a CMD write of any other word, on an idle block without a fault, sets RESULT to
ILLEGAL_COMMAND and changes nothing else. -/
def Obligations.IllegalWordSetsResultOnly : Prop :=
  ∀ (s : State) (w : Word) (es : List Event), s.ready → s.inputs = .host (.regWrite 0 w) :: es →
    w ≠ 0x00000001#32 → w ≠ 0x00000002#32 →
    step s = .next { s with inputs := es, result := .illegalCommand }

/-! ## A step runs the decoded command -/

/-- When the next event is a CMD write of a word that decodes to a command, the step is that command's meaning, with
the event taken off the inputs. -/
def Obligations.StepRunsTheDecodedCommand : Prop :=
  ∀ (s : State) (w : Word) (i : Instr) (es : List Event), s.inputs = .host (.regWrite 0 w) :: es →
    decode w = .command i → step s = exec i { s with inputs := es }

/-- A command placed by withFetchWord is the one the next step runs. -/
def Obligations.StepRunsThePlacedCommand : Prop :=
  ∀ (s : State) (i : Instr), i.wf = true → step (s.withFetchWord 32 (encode i).toNat) = exec i s

/-- With no input left, or on a BLOCK event, the step is the BLOCK step of the running phase while BUSY = 1 and
FAULT = 0, and changes nothing but the inputs otherwise (00_scope R14; that a turn without an enabled step changes
nothing is log entry 3). -/
def Obligations.BlockTurnRunsEnabledPhase : Prop :=
  ∀ s : State, s.nextEvent = .block →
    (s.phase ≠ .idle → s.fault = false → step s = phaseStep s.takeEvent) ∧
    (s.phase = .idle ∨ s.fault = true → step s = .next s.takeEvent)

/-! ## ENCODE -/

/-- 41_encode R121: the start of ENCODE, in every case. -/
def Obligations.EncodeStartDecidesInOrder : Prop :=
  ∀ s : State, s.ready →
    (¬ (s.carLen.toNat ≤ s.cfg.carDepth ∧ s.payLen.toNat ≤ s.cfg.payDepth) →
      exec .encode s = .next { s with result := .badConfig }) ∧
    (s.carLen.toNat ≤ s.cfg.carDepth ∧ s.payLen.toNat ≤ s.cfg.payDepth → s.carLen.toNat < 32 + 8 * s.payLen.toNat →
      exec .encode s = .next { s with result := .capacityExceeded }) ∧
    (s.carLen.toNat ≤ s.cfg.carDepth ∧ s.payLen.toNat ≤ s.cfg.payDepth → 32 + 8 * s.payLen.toNat ≤ s.carLen.toNat →
      exec .encode s = .next { s with result := .none, k := 0, i := 0, j := 0, phase := .encHdr })

/-- 41_encode R122: one ENCODE header step. -/
def Obligations.EncodeHeaderStepWritesOneSlot : Prop :=
  ∀ s : State, s.Inv → s.phase = .encHdr → s.fault = false → s.nextEvent = .block →
    ∃ t, step s = .next t ∧
      (∀ a, t.carAt a =
        if a = s.carLen.toNat - 1 - s.k.val then
          (s.carAt a &&& 0xFE#8) ||| (((s.payLen >>> s.k.val) &&& 1#32).setWidth 8)
        else s.carAt a) ∧
      (s.k.val < 31 → t = { s with inputs := s.inputs.tail, car := t.car, k := s.k + 1 }) ∧
      (s.k.val = 31 → s.payLen = 0#32 →
        t = { s with inputs := s.inputs.tail, car := t.car, hdr := s.payLen, result := .ok, phase := .idle }) ∧
      (s.k.val = 31 → s.payLen ≠ 0#32 →
        t = { s with inputs := s.inputs.tail, car := t.car, phase := .encPay, i := 0, j := 0 })

/-- 41_encode R123: one ENCODE payload step. -/
def Obligations.EncodePayloadStepWritesOneSlot : Prop :=
  ∀ s : State, s.Inv → s.phase = .encPay → s.fault = false → s.nextEvent = .block →
    ∃ t, step s = .next t ∧
      (∀ a, t.carAt a =
        if a = s.carLen.toNat - 33 - 8 * s.i.val - s.j.val then
          (s.carAt a &&& 0xFE#8) ||| (((s.payAt s.i.val >>> s.j.val) &&& 1#16).setWidth 8)
        else s.carAt a) ∧
      (s.j.val < 7 → t = { s with inputs := s.inputs.tail, car := t.car, j := s.j + 1 }) ∧
      (s.j.val = 7 → s.i.val + 1 < s.payLen.toNat →
        t = { s with inputs := s.inputs.tail, car := t.car, i := s.i + 1, j := 0 }) ∧
      (s.j.val = 7 → s.payLen.toNat ≤ s.i.val + 1 →
        t = { s with inputs := s.inputs.tail, car := t.car, hdr := s.payLen, result := .ok, phase := .idle })

/-- 41_encode R128: the end state of an ENCODE that completes OK, and the carrier after a rejected ENCODE. -/
def Obligations.EncodeEndState : Prop :=
  (∀ s : State, s.Inv → s.encodeAccepted → s.inputs = [] →
    ∃ t u, exec .encode s = .next t ∧ run (32 + 8 * s.payLen.toNat) t = .next u ∧
      (∀ k : Fin 32, u.carAt (s.carLen.toNat - 1 - k.val) =
        (s.carAt (s.carLen.toNat - 1 - k.val) &&& 0xFE#8) ||| (BitVec.ofBool (s.payLen.getLsbD k.val)).setWidth 8) ∧
      (∀ i, i < s.payLen.toNat → ∀ j : Fin 8, u.carAt (s.carLen.toNat - 33 - 8 * i - j.val) =
        (s.carAt (s.carLen.toNat - 33 - 8 * i - j.val) &&& 0xFE#8) |||
          (BitVec.ofBool ((s.payAt i).getLsbD j.val)).setWidth 8) ∧
      (∀ a, a < s.carLen.toNat - 32 - 8 * s.payLen.toNat ∨ s.carLen.toNat ≤ a → u.carAt a = s.carAt a) ∧
      (∀ a, (u.carAt a ^^^ s.carAt a) &&& 0xFE#8 = 0#8) ∧
      u = { s with car := u.car, result := .ok, hdr := s.payLen, k := u.k, i := u.i, j := u.j }) ∧
  (∀ s : State, s.ready → ¬ s.encodeAccepted →
    ∃ t, exec .encode s = .next t ∧ t.phase = .idle ∧ ∀ a, t.carAt a = s.carAt a)

/-- 41_encode R127, 20_memory R57: until its last BLOCK step an ENCODE shows BUSY = 1 with RESULT = NONE, and the
registers hold their values from before the command. -/
def Obligations.EncodeBusyUntilLastStep : Prop :=
  ∀ (s : State) (m : Nat), s.Inv → s.encodeAccepted → s.inputs = [] → m < 32 + 8 * s.payLen.toNat →
    ∃ t u, exec .encode s = .next t ∧ run m t = .next u ∧ u.status = 1#32 ∧
      u.carLen = s.carLen ∧ u.payLen = s.payLen ∧ u.hdr = s.hdr

/-- 41_encode R129: the count of an accepted ENCODE is below 2^29, so header bits 29, 30 and 31 are 0. -/
def Obligations.EncodedHeaderTopBitsAreZero : Prop :=
  ∀ s : State, s.encodeAccepted →
    s.payLen.toNat < 2 ^ 29 ∧ ∀ k : Fin 32, 29 ≤ k.val → hdrBit s.payLen k = 0#1

/-- 41_encode R127: "n > (L - 32) div 8: CAPACITY_EXCEEDED; the carrier is unchanged byte for byte", with floor
division. -/
def Obligations.EncodeTooLongIsRejected : Prop :=
  ∀ s : State, s.Inv → s.ready → s.carLen.toNat ≤ s.cfg.carDepth → s.payLen.toNat ≤ s.cfg.payDepth →
    Int.fdiv ((s.carLen.toNat : Int) - 32) 8 < (s.payLen.toNat : Int) →
    ∃ t, exec .encode s = .next t ∧ t.status = 0x30#32 ∧ (∀ a, t.carAt a = s.carAt a)

/-! ## DECODE -/

/-- 42_decode R141: the start of DECODE, in every case. -/
def Obligations.DecodeStartDecidesInOrder : Prop :=
  ∀ s : State, s.ready →
    (s.cfg.carDepth < s.carLen.toNat → exec .decode s = .next { s with result := .badConfig }) ∧
    (s.carLen.toNat ≤ s.cfg.carDepth → s.carLen.toNat < 32 →
      exec .decode s = .next { s with result := .outOfBounds }) ∧
    (s.carLen.toNat ≤ s.cfg.carDepth → 32 ≤ s.carLen.toNat →
      exec .decode s =
        .next { s with result := .none, k := 0, i := 0, j := 0, hacc := 0, cacc := 0, phase := .decHdr })

/-- 42_decode R142 and R143: one DECODE header step, with the header evaluation in the last one. -/
def Obligations.DecodeHeaderStepReadsOneSlot : Prop :=
  ∀ s : State, s.Inv → s.phase = .decHdr → s.fault = false → s.nextEvent = .block →
    ∃ h : Word, h = s.hacc ||| (((s.carAt (s.carLen.toNat - 1 - s.k.val) &&& 1#8).setWidth 32) <<< s.k.val) ∧
      (s.k.val < 31 → step s = .next { s with inputs := s.inputs.tail, hacc := h, k := s.k + 1 }) ∧
      (s.k.val = 31 → h = 0#32 →
        step s = .next { s with
          inputs := s.inputs.tail, hacc := h, hdr := 0, payLen := 0, result := .empty, phase := .idle }) ∧
      (s.k.val = 31 → h ≠ 0#32 → s.carLen.toNat < 32 + 8 * h.toNat ∨ s.cfg.payDepth < h.toNat →
        step s = .next { s with inputs := s.inputs.tail, hacc := h, hdr := h, result := .outOfBounds, phase := .idle }) ∧
      (s.k.val = 31 → h ≠ 0#32 → 32 + 8 * h.toNat ≤ s.carLen.toNat → h.toNat ≤ s.cfg.payDepth →
        step s = .next { s with inputs := s.inputs.tail, hacc := h, phase := .decPay, i := 0, j := 0, cacc := 0 })

/-- 42_decode R144 and R145: one DECODE payload step, with the completion in the last one. -/
def Obligations.DecodePayloadStepReadsOneSlot : Prop :=
  ∀ s : State, s.Inv → s.phase = .decPay → s.fault = false → s.nextEvent = .block →
    ∃ acc : Byte,
      acc = s.cacc ||| ((s.carAt (s.carLen.toNat - 33 - 8 * s.i.val - s.j.val) &&& 1#8) <<< s.j.val) ∧
      ∃ t, step s = .next t ∧
        (∀ n, t.payAt n = if s.j.val = 7 ∧ n = s.i.val then acc.setWidth 16 else s.payAt n) ∧
        (s.j.val < 7 → t = { s with inputs := s.inputs.tail, cacc := acc, j := s.j + 1 }) ∧
        (s.j.val = 7 → s.i.val + 1 < s.hacc.toNat →
          t = { s with inputs := s.inputs.tail, pay := t.pay, cacc := 0, i := s.i + 1, j := 0 }) ∧
        (s.j.val = 7 → s.hacc.toNat ≤ s.i.val + 1 →
          t = { s with
            inputs := s.inputs.tail, pay := t.pay, cacc := 0, hdr := s.hacc, payLen := s.hacc, result := .ok,
            phase := .idle })

/-- 42_decode R148 and R149: how an accepted DECODE ends, for each header value h that bit 0 of the last 32 carrier
bytes spells, and the carrier after a rejected DECODE. CAR is unchanged in each case. -/
def Obligations.DecodeEndState : Prop :=
  (∀ s : State, s.Inv → s.decodeAccepted → s.inputs = [] →
    ∀ h : Word, (∀ k : Fin 32, h.getLsbD k.val = (s.carAt (s.carLen.toNat - 1 - k.val)).getLsbD 0) →
    ∃ t, exec .decode s = .next t ∧
      (h = 0#32 → ∃ u, run 32 t = .next u ∧
        u = { s with result := .empty, hdr := 0, payLen := 0, k := u.k, i := u.i, j := u.j, hacc := h, cacc := 0 }) ∧
      (h ≠ 0#32 → s.carLen.toNat < 32 + 8 * h.toNat ∨ s.cfg.payDepth < h.toNat → ∃ u, run 32 t = .next u ∧
        u = { s with result := .outOfBounds, hdr := h, k := u.k, i := u.i, j := u.j, hacc := h, cacc := 0 }) ∧
      (h ≠ 0#32 → 32 + 8 * h.toNat ≤ s.carLen.toNat → h.toNat ≤ s.cfg.payDepth →
        ∃ u, run (32 + 8 * h.toNat) t = .next u ∧
          u = { s with
            result := .ok, hdr := h, payLen := h, pay := u.pay, k := u.k, i := u.i, j := u.j, hacc := h, cacc := 0 } ∧
          (∀ i, i < h.toNat → ∀ b, (u.payAt i).getLsbD b =
            (decide (b < 8) && (s.carAt (s.carLen.toNat - 33 - 8 * i - b)).getLsbD 0)) ∧
          (∀ n, h.toNat ≤ n → u.payAt n = s.payAt n))) ∧
  (∀ s : State, s.ready → ¬ s.decodeAccepted →
    ∃ t, exec .decode s = .next t ∧ t.phase = .idle ∧ t.car = s.car)

/-- 42_decode R148, 20_memory R57: through the header steps, and until the last payload step if the header fits, a
DECODE shows BUSY = 1 with RESULT = NONE, and the registers hold their values from before the command. -/
def Obligations.DecodeBusyUntilLastStep : Prop :=
  ∀ (s : State) (m : Nat) (h : Word), s.Inv → s.decodeAccepted → s.inputs = [] →
    (∀ k : Fin 32, h.getLsbD k.val = (s.carAt (s.carLen.toNat - 1 - k.val)).getLsbD 0) →
    (m < 32 ∨ (m < 32 + 8 * h.toNat ∧ 32 + 8 * h.toNat ≤ s.carLen.toNat ∧ h.toNat ≤ s.cfg.payDepth)) →
    ∃ t u, exec .decode s = .next t ∧ run m t = .next u ∧ u.status = 1#32 ∧
      u.carLen = s.carLen ∧ u.payLen = s.payLen ∧ u.hdr = s.hdr

/-- 42_decode R143, 90_conflicts C3: a header with bit 31 set never fits, so it ends OUT_OF_BOUNDS, never EMPTY. -/
def Obligations.HeaderWithTopBitIsOutOfBounds : Prop :=
  ∀ s : State, s.hacc.getLsbD 31 = true →
    decodeHeaderEvaluate s = { s with hdr := s.hacc, result := .outOfBounds, phase := .idle }

/-- 42_decode R150: DECODE after an ENCODE gives back the low 8 bits of each character. -/
def Obligations.DecodeAfterEncodeGivesBackThePayload : Prop :=
  ∀ s : State, s.Inv → s.encodeAccepted → s.inputs = [] →
    ∃ t u v w, exec .encode s = .next t ∧ run (32 + 8 * s.payLen.toNat) t = .next u ∧
      exec .decode u = .next v ∧ run (32 + 8 * s.payLen.toNat) v = .next w ∧
      w.phase = .idle ∧ w.fault = false ∧ w.hdr = s.payLen ∧ w.payLen = s.payLen ∧ w.car = u.car ∧
      (s.payLen = 0#32 → w.result = .empty) ∧ (s.payLen ≠ 0#32 → w.result = .ok) ∧
      (∀ i, i < s.payLen.toNat → w.payAt i = ((s.payAt i).setWidth 8).setWidth 16) ∧
      (∀ i, i < s.payLen.toNat → (w.payAt i = s.payAt i ↔ (s.payAt i).toNat ≤ 0xFF))

/-! ## Host transactions -/

/-- 43_host_interface R161: RegRead returns the register's value and changes nothing else; an unmapped index raises
BAD_REG and returns some value. -/
def Obligations.RegReadReturnsTheRegister : Prop :=
  ∀ (s : State) (idx : Nat) (es : List Event), s.inputs = .host (.regRead idx) :: es →
    (idx = 0 → step s = .next { s with inputs := es, replies := .reg 0 0#32 :: s.replies }) ∧
    (idx = 1 → step s = .next { s with inputs := es, replies := .reg 1 s.status :: s.replies }) ∧
    (idx = 2 → step s = .next { s with inputs := es, replies := .reg 2 s.carLen :: s.replies }) ∧
    (idx = 3 → step s = .next { s with inputs := es, replies := .reg 3 s.payLen :: s.replies }) ∧
    (idx = 4 → step s = .next { s with inputs := es, replies := .reg 4 s.hdr :: s.replies }) ∧
    (5 ≤ idx → ∃ v, step s = .next { s with
      inputs := es, replies := .reg idx v :: s.replies, draws := s.draws + 1, fault := true,
      faultCause := if s.fault then s.faultCause else .badReg })

/-- 43_host_interface R164: a write of CAR_LEN or PAY_LEN on an idle block without a fault changes that register
alone, for every value. -/
def Obligations.ConfigWriteSetsTheRegister : Prop :=
  ∀ (s : State) (v : Word) (idx : Nat) (es : List Event), s.ready → s.inputs = .host (.regWrite idx v) :: es →
    (idx = 2 → step s = .next { s with inputs := es, carLen := v }) ∧
    (idx = 3 → step s = .next { s with inputs := es, payLen := v })

/-- 60_exceptions R186: the register accesses that raise BAD_REG. -/
def Obligations.BadRegisterAccessFaults : Prop :=
  ∀ (s : State) (idx : Nat) (v : Word) (es : List Event), s.fault = false →
    (s.inputs = .host (.regRead idx) :: es → 5 ≤ idx →
      ∃ x, step s = .next { s with
        inputs := es, replies := .reg idx x :: s.replies, draws := s.draws + 1, fault := true,
        faultCause := .badReg }) ∧
    (s.inputs = .host (.regWrite idx v) :: es → idx = 1 ∨ idx = 4 ∨ 5 ≤ idx → s.phase = .idle →
      step s = .next { s with inputs := es, fault := true, faultCause := .badReg }) ∧
    (s.inputs = .host (.regWrite idx v) :: es → s.phase ≠ .idle →
      step s = .next { s with inputs := es, fault := true, faultCause := .hazard })

/-- 43_host_interface R165: CarRead, in every case. -/
def Obligations.CarReadReturnsTheByte : Prop :=
  ∀ (s : State) (a : Nat) (es : List Event), s.inputs = .host (.carRead a) :: es →
    (s.fault = true → ∃ v, step s = .next { s with
      inputs := es, replies := .car a v :: s.replies, draws := s.draws + 1 }) ∧
    (s.fault = false → s.phase ≠ .idle → ∃ v, step s = .next { s with
      inputs := es, replies := .car a v :: s.replies, draws := s.draws + 1, fault := true, faultCause := .hazard }) ∧
    (s.ready → s.cfg.carDepth ≤ a → ∃ v, step s = .next { s with
      inputs := es, replies := .car a v :: s.replies, draws := s.draws + 1, fault := true, faultCause := .badAddr }) ∧
    (s.ready → a < s.cfg.carDepth → step s = .next { s with
      inputs := es, replies := .car a (s.carAt a) :: s.replies })

/-- 43_host_interface R166: CarWrite, in every case. -/
def Obligations.CarWriteSetsTheByte : Prop :=
  ∀ (s : State) (a : Nat) (v : Byte) (es : List Event), s.Inv → s.inputs = .host (.carWrite a v) :: es →
    (s.fault = true → step s = .next { s with inputs := es }) ∧
    (s.fault = false → s.phase ≠ .idle →
      step s = .next { s with inputs := es, fault := true, faultCause := .hazard }) ∧
    (s.ready → s.cfg.carDepth ≤ a → step s = .next { s with inputs := es, fault := true, faultCause := .badAddr }) ∧
    (s.ready → a < s.cfg.carDepth → ∃ t, step s = .next t ∧ t = { s with inputs := es, car := t.car } ∧
      ∀ b, t.carAt b = if b = a then v else s.carAt b)

/-- 43_host_interface R167: PayRead, in every case. -/
def Obligations.PayReadReturnsTheEntry : Prop :=
  ∀ (s : State) (n : Nat) (es : List Event), s.inputs = .host (.payRead n) :: es →
    (s.fault = true → ∃ v, step s = .next { s with
      inputs := es, replies := .pay n v :: s.replies, draws := s.draws + 1 }) ∧
    (s.fault = false → s.phase ≠ .idle → ∃ v, step s = .next { s with
      inputs := es, replies := .pay n v :: s.replies, draws := s.draws + 1, fault := true, faultCause := .hazard }) ∧
    (s.ready → s.cfg.payDepth ≤ n → ∃ v, step s = .next { s with
      inputs := es, replies := .pay n v :: s.replies, draws := s.draws + 1, fault := true, faultCause := .badAddr }) ∧
    (s.ready → n < s.cfg.payDepth → step s = .next { s with
      inputs := es, replies := .pay n (s.payAt n) :: s.replies })

/-- 43_host_interface R168: PayWrite, in every case. -/
def Obligations.PayWriteSetsTheEntry : Prop :=
  ∀ (s : State) (n : Nat) (v : CodeUnit) (es : List Event), s.Inv → s.inputs = .host (.payWrite n v) :: es →
    (s.fault = true → step s = .next { s with inputs := es }) ∧
    (s.fault = false → s.phase ≠ .idle →
      step s = .next { s with inputs := es, fault := true, faultCause := .hazard }) ∧
    (s.ready → s.cfg.payDepth ≤ n → step s = .next { s with inputs := es, fault := true, faultCause := .badAddr }) ∧
    (s.ready → n < s.cfg.payDepth → ∃ t, step s = .next t ∧ t = { s with inputs := es, pay := t.pay } ∧
      ∀ b, t.payAt b = if b = n then v else s.payAt b)

/-! ## Faults -/

/-- 60_exceptions R185: every transaction but RegRead, made while BUSY = 1 and FAULT = 0, raises HAZARD and does
nothing else; a read returns some value. -/
def Obligations.TransactionWhileBusyRaisesHazard : Prop :=
  ∀ (s : State) (x : Transaction) (es : List Event), s.phase ≠ .idle → s.fault = false →
    s.inputs = .host x :: es → (∀ idx, x ≠ .regRead idx) →
    ∃ t, step s = .next t ∧
      t = { s with
        inputs := es, fault := true, faultCause := .hazard, replies := t.replies, draws := t.draws } ∧
      (∀ idx v, x = .regWrite idx v → t.replies = s.replies ∧ t.draws = s.draws) ∧
      (∀ a v, x = .carWrite a v → t.replies = s.replies ∧ t.draws = s.draws) ∧
      (∀ n v, x = .payWrite n v → t.replies = s.replies ∧ t.draws = s.draws) ∧
      (∀ a, x = .carRead a → ∃ v, t.replies = .car a v :: s.replies) ∧
      (∀ n, x = .payRead n → ∃ v, t.replies = .pay n v :: s.replies)

/-- 43_host_interface R169: while FAULT = 1, every step but reset leaves the block as it is. -/
def Obligations.FaultedBlockIsHalted : Prop :=
  ∀ s : State, s.fault = true → s.nextEvent ≠ .reset →
    ∃ t, step s = .next t ∧ t = { s with inputs := s.inputs.tail, replies := t.replies, draws := t.draws }

/-- 60_exceptions R188, R193: only reset clears FAULT, and FAULT_CAUSE keeps the first cause until then. -/
def Obligations.OnlyResetClearsFault : Prop :=
  ∀ (m : Nat) (s t : State), s.fault = true → (∀ e ∈ s.inputs, e ≠ .reset) → run m s = .next t →
    t.fault = true ∧ t.faultCause = s.faultCause ∧ t.phase = s.phase

/-- 41_encode R126, 42_decode R147, 20_memory R52: from a state that meets the invariant a BLOCK turn answers a next
state, so no access leaves CAR or PAY, and it records no fault. -/
def Obligations.BlockStepsNeverFault : Prop :=
  ∀ s : State, s.Inv → s.nextEvent = .block →
    ∃ t, step s = .next t ∧ t.fault = s.fault ∧ t.faultCause = s.faultCause

/-- 60_exceptions R191, R187, R185, R186: FAULT goes from 0 to 1 only by a host transaction, and only for the recorded
cause. -/
def Obligations.FaultOnlyByHostMisuse : Prop :=
  ∀ s t : State, step s = .next t → s.fault = false → t.fault = true →
    ∃ x es, s.inputs = .host x :: es ∧
      ((t.faultCause = .hazard ∧ s.phase ≠ .idle ∧ ∀ idx, x ≠ .regRead idx) ∨
       (t.faultCause = .badReg ∧ ((∃ idx, x = .regRead idx ∧ 5 ≤ idx) ∨
         (s.phase = .idle ∧ ∃ idx v, x = .regWrite idx v ∧ (idx = 1 ∨ 4 ≤ idx)))) ∨
       (t.faultCause = .badAddr ∧ s.phase = .idle ∧
         ((∃ a, s.cfg.carDepth ≤ a ∧ (x = .carRead a ∨ ∃ v, x = .carWrite a v)) ∨
          (∃ n, s.cfg.payDepth ≤ n ∧ (x = .payRead n ∨ ∃ v, x = .payWrite n v)))))

/-! ## STATUS -/

/-- 10_state R23: the fields of STATUS, bit by bit; every other bit reads 0. -/
def Obligations.StatusFieldsAreWhereTheyStand : Prop :=
  ∀ s : State,
    s.status.getLsbD 0 = decide (s.phase ≠ .idle) ∧ s.status.getLsbD 1 = s.fault ∧
    s.status.extractLsb' 4 4 = s.result.code ∧ s.status.extractLsb' 8 4 = s.faultCause.code ∧
    s.status.extractLsb' 2 2 = 0#2 ∧ s.status.extractLsb' 12 20 = 0#20

/-- 10_state R24 and R25: the codes of RESULT and FAULT_CAUSE; no code is 7 or above, or 4 or above. -/
def Obligations.ResultAndCauseCodes : Prop :=
  (Result.none.code = 0 ∧ Result.ok.code = 1 ∧ Result.empty.code = 2 ∧ Result.capacityExceeded.code = 3 ∧
    Result.outOfBounds.code = 4 ∧ Result.illegalCommand.code = 5 ∧ Result.badConfig.code = 6) ∧
  (FaultCause.none.code = 0 ∧ FaultCause.hazard.code = 1 ∧ FaultCause.badReg.code = 2 ∧ FaultCause.badAddr.code = 3) ∧
  (∀ r : Result, r.code.toNat < 7) ∧ (∀ c : FaultCause, c.code.toNat < 4)

/-! ## Reset -/

/-- 10_state R35: the power-on reset state, for every value of the parameters. -/
def Obligations.PowerOnLeavesResetValues : Prop :=
  ∀ c : Config,
    (State.powerOn c).status = 0#32 ∧ (State.powerOn c).phase = .idle ∧ (State.powerOn c).fault = false ∧
    (State.powerOn c).result = .none ∧ (State.powerOn c).faultCause = .none ∧
    (State.powerOn c).carLen = 0#32 ∧ (State.powerOn c).payLen = 0#32 ∧ (State.powerOn c).hdr = 0#32 ∧
    (State.powerOn c).k = 0 ∧ (State.powerOn c).i = 0 ∧ (State.powerOn c).j = 0 ∧
    (State.powerOn c).hacc = 0#32 ∧ (State.powerOn c).cacc = 0#8 ∧
    (∀ a v, Memory.find c.ramInitCar a = some v → (State.powerOn c).carAt a = v) ∧
    (∀ n v, Memory.find c.ramInitPay n = some v → (State.powerOn c).payAt n = v)

/-- 70_reset_and_hazards R210: the reset input, at any time, sets every element to its reset value and keeps CAR and
PAY. -/
def Obligations.ResetRestoresAllButMemory : Prop :=
  ∀ (s : State) (es : List Event), s.inputs = .reset :: es →
    step s = .next { State.powerOn s.cfg with
      car := s.car, pay := s.pay, inputs := es, replies := s.replies, draws := s.draws }

/-- 70_reset_and_hazards R211: a reset after m BLOCK steps of an ENCODE keeps exactly the slot writes of those steps:
the header bits k < m, and the character bits with 32 + 8i + j < m. -/
def Obligations.ResetDuringEncodeKeepsTheSlotsWritten : Prop :=
  ∀ (s : State) (m : Nat), s.Inv → s.encodeAccepted → s.inputs = [] → m < 32 + 8 * s.payLen.toNat →
    ∃ t u v, exec .encode s = .next t ∧ run m t = .next u ∧ step { u with inputs := [.reset] } = .next v ∧
      v.status = 0#32 ∧ v.carLen = 0#32 ∧ v.payLen = 0#32 ∧ v.hdr = 0#32 ∧
      (∀ a, v.carAt a =
        if a < s.carLen.toNat ∧ s.carLen.toNat ≤ a + m then
          (s.carAt a &&& 0xFE#8) |||
            (BitVec.ofBool (
              if s.carLen.toNat ≤ a + 32 then s.payLen.getLsbD (s.carLen.toNat - 1 - a)
              else (s.payAt ((s.carLen.toNat - 33 - a) / 8)).getLsbD ((s.carLen.toNat - 33 - a) % 8))).setWidth 8
        else s.carAt a)

/-! ## The whole machine -/

/-- The invariant holds at power-on, for all parameters within 00_scope R9's bounds, and at State.reset. -/
def Obligations.PowerOnMeetsTheInvariant : Prop :=
  (∀ c : Config, c.wf = true → (State.powerOn c).Inv) ∧ State.reset.Inv

/-- Every step keeps the invariant: both memories stay canonical and within their depth, a running command's operands
keep passing its checks, and FAULT is set exactly when a cause is recorded. -/
def Obligations.StepKeepsTheInvariant : Prop :=
  ∀ s t : State, s.Inv → step s = .next t → t.Inv

/-- 20_memory R52: from a state that meets the invariant every step answers a next state. -/
def Obligations.StepAlwaysAnswersNext : Prop :=
  ∀ s : State, s.Inv → ∃ t, step s = .next t

/-- 10_state R36: no step changes the parameters. -/
def Obligations.StepKeepsTheParameters : Prop :=
  ∀ s t : State, step s = .next t → t.cfg = s.cfg

/-- 20_memory R53, R58: a carrier byte changes only by a CarWrite to it on an idle block without a fault, or in bit 0
by an ENCODE slot step at the slot it stands at. So DECODE never writes CAR. -/
def Obligations.CarrierChangesOnlyBySlotOrCarWrite : Prop :=
  ∀ (s t : State) (a : Nat), s.Inv → step s = .next t → t.carAt a ≠ s.carAt a →
    (∃ v, s.nextEvent = .host (.carWrite a v) ∧ s.ready ∧ a < s.cfg.carDepth ∧ t.carAt a = v) ∨
    (s.nextEvent = .block ∧ s.fault = false ∧ t.carAt a ^^^ s.carAt a = 1#8 ∧
      ((s.phase = .encHdr ∧ a = s.carLen.toNat - 1 - s.k.val) ∨
       (s.phase = .encPay ∧ a = s.carLen.toNat - 33 - 8 * s.i.val - s.j.val)))

/-- 42_decode R140, 41_encode R120: a payload entry changes only by a PayWrite to it on an idle block without a fault,
or by the eighth bit step of that character in a DECODE, which leaves bits 15:8 zero. -/
def Obligations.PayloadChangesOnlyByDecodeOrPayWrite : Prop :=
  ∀ (s t : State) (n : Nat), s.Inv → step s = .next t → t.payAt n ≠ s.payAt n →
    (∃ v, s.nextEvent = .host (.payWrite n v) ∧ s.ready ∧ n < s.cfg.payDepth ∧ t.payAt n = v) ∨
    (s.nextEvent = .block ∧ s.fault = false ∧ s.phase = .decPay ∧ s.j.val = 7 ∧ n = s.i.val ∧
      (t.payAt n).toNat ≤ 0xFF)

/-- 10_state R26, R27, R28: what changes CAR_LEN, PAY_LEN and HDR, and to what. -/
def Obligations.LengthRegistersChangeOnlyByTheirRules : Prop :=
  ∀ s t : State, step s = .next t →
    (t.carLen ≠ s.carLen →
      (s.nextEvent = .reset ∧ t.carLen = 0#32) ∨ (s.ready ∧ s.nextEvent = .host (.regWrite 2 t.carLen))) ∧
    (t.payLen ≠ s.payLen →
      (s.nextEvent = .reset ∧ t.payLen = 0#32) ∨ (s.ready ∧ s.nextEvent = .host (.regWrite 3 t.payLen)) ∨
      (s.nextEvent = .block ∧ (s.phase = .decHdr ∨ s.phase = .decPay) ∧ t.phase = .idle ∧
        (t.result = .ok ∨ t.result = .empty) ∧ t.payLen = t.hdr)) ∧
    (t.hdr ≠ s.hdr →
      (s.nextEvent = .reset ∧ t.hdr = 0#32) ∨
      (s.nextEvent = .block ∧ t.phase = .idle ∧
        (((s.phase = .encHdr ∨ s.phase = .encPay) ∧ t.result = .ok ∧ t.hdr = s.payLen) ∨
         ((s.phase = .decHdr ∨ s.phase = .decPay) ∧
           (t.result = .ok ∨ t.result = .empty ∨ t.result = .outOfBounds) ∧ t.hdr = t.hacc))))

/-- 43_host_interface R171: a run of the block has ended exactly when (a) PHASE = IDLE, (b) the host has no further
transaction and (c) FAULT = 0. -/
def Obligations.RunHasEndedExactlyWhenIdleUnfaultedWithoutTransaction : Prop :=
  ∀ s : State, s.final = true ↔ s.phase = .idle ∧ (∀ x, Event.host x ∉ s.inputs) ∧ s.fault = false

/-- 43_host_interface R171, 30_encoding R81: a run with a host program has ended exactly when the block's run has ended and
no number of labels and IFs from the agent's place on leads to a transaction. -/
def Obligations.HostProgramRunHasEndedExactlyWithoutTransaction : Prop :=
  ∀ (p : List HostStmt) (y : HostSystem), y.final p = true ↔
    y.block.phase = .idle ∧ (∀ x, Event.host x ∉ y.block.inputs) ∧ y.block.fault = false ∧
      ∀ m, (y.agent.passAll p m).pending? p = none

/-- 43_host_interface R171: after the end of a run with a host program, a turn of the host or of the block leaves the block
as it is, a reset resets it, and the run stays ended. -/
def Obligations.HostProgramRunStaysEnded : Prop :=
  ∀ (p : List HostStmt) (y : HostSystem) (turn : Turn), y.final p = true →
    ∃ y', y.step p turn = .next y' ∧ y'.final p = true ∧
      y'.block = match turn with
        | .host => y.block
        | .block => y.block
        | .reset => assertReset y.block

/-- 43_host_interface R171: equal observations are equal final register values and equal final memories, byte by byte
and entry by entry. -/
def Obligations.ObservationIsTheRegistersAndTheMemories : Prop :=
  ∀ s t : State, s.observation = t.observation ↔
    s.status = t.status ∧ s.carLen = t.carLen ∧ s.payLen = t.payLen ∧ s.hdr = t.hdr ∧
    s.cfg.carDepth = t.cfg.carDepth ∧ (∀ a, a < s.cfg.carDepth → s.carAt a = t.carAt a) ∧
    s.cfg.payDepth = t.cfg.payDepth ∧ (∀ n, n < s.cfg.payDepth → s.payAt n = t.payAt n)

/-- 43_host_interface R171, 70_reset_and_hazards R210: after the end of a run the run stays ended and CAR and PAY stay as
they are. Until a reset nothing changes but the inputs, so the observation stays the same (that a turn without an enabled
step changes nothing is log entry 3). -/
def Obligations.FinalStateStays : Prop :=
  ∀ s : State, s.final = true → ∀ m, ∃ t, run m s = .next t ∧ t.final = true ∧
    t.carContents = s.carContents ∧ t.payContents = s.payContents ∧
    (Event.reset ∉ s.inputs.take m → t = { s with inputs := s.inputs.drop m } ∧ t.observation = s.observation)

/-- 43_host_interface R172: the schedule of the host's RegReads of mapped registers during a command does not change
what the BLOCK steps do: the run with them ends where the run of its BLOCK turns alone ends, but for the values
returned. -/
def Obligations.RegReadScheduleDoesNotMatter : Prop :=
  ∀ (s : State) (es rest : List Event), s.Inv →
    (∀ e ∈ es, e = .block ∨ ∃ idx, idx < 5 ∧ e = .host (.regRead idx)) →
    ∃ u v, run es.length { s with inputs := es ++ rest } = .next u ∧
      run (es.count .block) { s with inputs := List.replicate (es.count .block) .block ++ rest } = .next v ∧
      u = { v with replies := u.replies }

/-- 10_state R37: what a command does depends only on CAR_LEN, PAY_LEN, CAR and PAY at its start, never on HDR,
RESULT, the sequencer or the accumulators left by an earlier command. -/
def Obligations.CommandIgnoresEarlierCommands : Prop :=
  ∀ (i : Instr) (s s' : State) (m : Nat), s.Inv → s'.Inv → s.ready → s'.ready → s.inputs = [] → s'.inputs = [] →
    s'.cfg = s.cfg → s'.carLen = s.carLen → s'.payLen = s.payLen → s'.car = s.car → s'.pay = s.pay →
    ∃ t t' u u', exec i s = .next t ∧ exec i s' = .next t' ∧ run m t = .next u ∧ run m t' = .next u' ∧
      u'.phase = u.phase ∧ u'.result = u.result ∧ u'.fault = u.fault ∧ u'.carLen = u.carLen ∧
      u'.payLen = u.payLen ∧ u'.car = u.car ∧ u'.pay = u.pay ∧
      (t.phase ≠ .idle → u.phase = .idle → u'.hdr = u.hdr)

/-! ## Memory and datapath -/

/-- 20_memory R59, R66: a read of a location returns the latest write to it; a write leaves every other location alone
and keeps the memory's canonical form; equal memories are equal lists. -/
def Obligations.MemoryReadsTheLatestWrite : Prop :=
  ∀ (w depth : Nat) (init m : List (Nat × BitVec w)) (a : Nat) (v : BitVec w),
    Memory.wf init depth m = true → a < depth →
    Memory.read init (Memory.write init m a v) a = v ∧
    (∀ b, b ≠ a → Memory.read init (Memory.write init m a v) b = Memory.read init m b) ∧
    Memory.wf init depth (Memory.write init m a v) = true ∧
    (∀ m', Memory.wf init depth m' = true →
      (∀ b, Memory.read init m' b = Memory.read init (Memory.write init m a v) b) → m' = Memory.write init m a v)

/-- 40_datapath_units R102: for 32 + 8c <= L the slot addresses lie in their ranges, are pairwise distinct, and are
exactly the offsets L-32-8c to L-1. -/
def Obligations.SlotsAreDistinctAndCoverTheFootprint : Prop :=
  ∀ L c : Nat, 32 + 8 * c ≤ L →
    (∀ k : Fin 32, (L : Int) - 32 ≤ hdrSlot L k ∧ hdrSlot L k ≤ L - 1) ∧
    (∀ i, i < c → ∀ j : Fin 8, 0 ≤ (L : Int) - 32 - 8 * c ∧ (L : Int) - 32 - 8 * c ≤ paySlot L i j ∧
      paySlot L i j ≤ L - 33) ∧
    (∀ k k' : Fin 32, hdrSlot L k = hdrSlot L k' → k = k') ∧
    (∀ i i', i < c → i' < c → ∀ j j' : Fin 8, paySlot L i j = paySlot L i' j' → i = i' ∧ j = j') ∧
    (∀ (k : Fin 32) (i : Nat) (j : Fin 8), i < c → hdrSlot L k ≠ paySlot L i j) ∧
    (∀ a : Int, (L : Int) - 32 - 8 * c ≤ a ∧ a ≤ L - 1 ↔
      (∃ k : Fin 32, a = hdrSlot L k) ∨ ∃ i, i < c ∧ ∃ j : Fin 8, a = paySlot L i j)

/-- 40_datapath_units R106: bits 7:1 of Insert's result are those of the byte, bit 0 is the data bit, and Extract
gives it back. -/
def Obligations.InsertChangesBitZeroOnly : Prop :=
  ∀ (byte : Byte) (v : Bit),
    (∀ b, 1 ≤ b → (insertBit byte v).getLsbD b = byte.getLsbD b) ∧ (insertBit byte v).getLsbD 0 = v.getLsbD 0 ∧
    (insertBit byte v ^^^ byte = 0x00#8 ∨ insertBit byte v ^^^ byte = 0x01#8) ∧
    (insertBit byte v ^^^ byte = 0x00#8 ↔ byte.getLsbD 0 = v.getLsbD 0) ∧ extractBit (insertBit byte v) = v

/-- 40_datapath_units R104, R105, R107, R109: HdrBit and CharBit select bit k and bit j, HdrAcc and CharAcc put a bit
there, and CharOut never sets bits 15:8. -/
def Obligations.BitSelectorsAndAccumulatorsAgree : Prop :=
  (∀ (n : Word) (k : Fin 32), (hdrBit n k).toNat = n.toNat / 2 ^ k.val % 2) ∧
  (∀ (c : CodeUnit) (j : Fin 8), (charBit c j).toNat = c.toNat / 2 ^ j.val % 2) ∧
  (∀ (acc : Word) (b : Bit) (k : Fin 32), acc.toNat < 2 ^ k.val →
    (hdrAcc acc b k).toNat = acc.toNat + b.toNat * 2 ^ k.val) ∧
  (∀ (acc : Byte) (b : Bit) (j : Fin 8), acc.toNat < 2 ^ j.val →
    (charAcc acc b j).toNat = acc.toNat + b.toNat * 2 ^ j.val) ∧
  (∀ acc : Byte, (charOut acc).toNat = acc.toNat)

/-- 40_datapath_units R111: Fits agrees with the source's test under floor division. -/
def Obligations.FitsAgreesWithFloorDivision : Prop :=
  ∀ L c : Nat, fits L c = true ↔ (c : Int) ≤ Int.fdiv ((L : Int) - 32) 8

/-! ## Host notation -/

/-- 30_encoding R82: the expansions of the pseudo-instructions. -/
def Obligations.PseudoInstructionsExpand : Prop :=
  ∀ (f : Nat), HostLine.expand f .encode = [.regw 0 0x00000001#32] ∧
    HostLine.expand f .decode = [.regw 0 0x00000002#32] ∧
    (∀ s, HostLine.expand f (.wait s) =
      [.label f, .regr 1 s, .ifGoto { name := s, hi := 0, lo := 0, equal := true, value := 1 } f]) ∧
    (∀ (a : Nat) (bs : List Byte) (x : Nat), (HostLine.expand f (.loadCar a bs))[x]? =
      bs[x]?.map fun b => .carw (a + x) b) ∧
    (∀ (n : Nat) (cs : List CodeUnit) (x : Nat), (HostLine.expand f (.loadPay n cs))[x]? =
      cs[x]?.map fun c => .payw (n + x) c) ∧
    (∀ (a m : Nat) (b : Byte) (x : Nat), (HostLine.expand f (.fillCar a m b))[x]? =
      if x < m then some (.carw (a + x) b) else none)
end

