-- ==== Sys2Proof/Laws/Datapath.lean ====
section
/-! SUPPORT. The datapath functions bit by bit, the slot addresses as natural numbers, and the comparators as
inequalities. -/

namespace Sys2Proof.Machine

/-! ### Comparators -/

@[simp] theorem fits_iff (L c : Nat) : fits L c = true ↔ 32 + 8 * c ≤ L := by simp [fits]

@[simp] theorem fits_eq_false_iff (L c : Nat) : fits L c = false ↔ L < 32 + 8 * c := by simp [fits]

@[simp] theorem inDepth_iff (cfg : Config) (L c : Nat) :
    inDepth cfg L c = true ↔ L ≤ cfg.carDepth ∧ c ≤ cfg.payDepth := by simp [inDepth]

theorem inDepth_eq_false_iff (cfg : Config) (L c : Nat) :
    inDepth cfg L c = false ↔ ¬ (L ≤ cfg.carDepth ∧ c ≤ cfg.payDepth) := by
  simp [inDepth]

/-! ### Slot addresses -/

theorem hdrSlot_nonneg {L : Nat} (k : Fin 32) (h : 32 ≤ L) : 0 ≤ hdrSlot L k := by
  unfold hdrSlot; omega

theorem hdrSlot_lt {L : Nat} (k : Fin 32) : hdrSlot L k < L := by unfold hdrSlot; omega

theorem hdrSlot_toNat {L : Nat} (k : Fin 32) : (hdrSlot L k).toNat = L - 1 - k.val := by
  unfold hdrSlot; omega

theorem paySlot_nonneg {L i c : Nat} (j : Fin 8) (hi : i < c) (h : 32 + 8 * c ≤ L) : 0 ≤ paySlot L i j := by
  unfold paySlot; omega

theorem paySlot_lt {L i : Nat} (j : Fin 8) : paySlot L i j < L := by unfold paySlot; omega

theorem paySlot_toNat {L i : Nat} (j : Fin 8) : (paySlot L i j).toNat = L - 33 - 8 * i - j.val := by
  unfold paySlot; omega

/-! ### Data bits -/

theorem insertBit_getLsbD (byte : Byte) (v : Bit) (b : Nat) :
    (insertBit byte v).getLsbD b = if b = 0 then v.getLsbD 0 else byte.getLsbD b := by
  unfold insertBit
  rcases b with _ | _ | _ | _ | _ | _ | _ | _ | b
  case succ.succ.succ.succ.succ.succ.succ.succ => simp [BitVec.getLsbD_of_ge]
  all_goals simp

@[simp] theorem extractBit_insertBit (byte : Byte) (v : Bit) : extractBit (insertBit byte v) = v := by
  ext b hb
  obtain rfl : b = 0 := by omega
  have h := insertBit_getLsbD byte v 0
  simpa [extractBit, BitVec.getLsbD_eq_getElem] using h

/-- Only bit 0 changes (40_datapath_units R106). -/
theorem insertBit_xor (byte : Byte) (v : Bit) : (insertBit byte v ^^^ byte) &&& 0xFE#8 = 0#8 := by
  apply BitVec.eq_of_getLsbD_eq
  intro b hb
  simp only [BitVec.getLsbD_and, BitVec.getLsbD_xor, insertBit_getLsbD]
  split
  · subst b; simp
  · simp

theorem insertBit_eq_or (byte : Byte) (v : Bit) : insertBit byte v = (byte &&& 0xFE#8) ||| v.setWidth 8 := rfl

theorem hdrBit_eq_shift (n : Word) (k : Fin 32) : hdrBit n k = ((n >>> k.val) &&& 1#32).setWidth 1 := by
  ext b hb
  obtain rfl : b = 0 := by omega
  simp [hdrBit]

theorem charBit_eq_shift (c : CodeUnit) (j : Fin 8) : charBit c j = ((c >>> j.val) &&& 1#16).setWidth 1 := by
  ext b hb
  obtain rfl : b = 0 := by omega
  simp [charBit]

theorem extractBit_eq_and (byte : Byte) : extractBit byte = (byte &&& 1#8).setWidth 1 := by
  ext b hb
  obtain rfl : b = 0 := by omega
  simp [extractBit]

/-! ### Accumulators -/

theorem hdrAcc_getLsbD (acc : Word) (b : Bit) (k : Fin 32) (x : Nat) :
    (hdrAcc acc b k).getLsbD x = (acc.getLsbD x || (decide (x = k.val) && b.getLsbD 0)) := by
  unfold hdrAcc
  simp only [BitVec.getLsbD_or, BitVec.getLsbD_shiftLeft, BitVec.getLsbD_setWidth]
  by_cases hx : x = k.val
  · subst hx; simp
  · by_cases hlt : x < k.val
    · simp [hlt, hx]
    · have : b.getLsbD (x - k.val) = false := BitVec.getLsbD_of_ge _ _ (by omega)
      simp [this, hx]

theorem charAcc_getLsbD (acc : Byte) (b : Bit) (j : Fin 8) (x : Nat) :
    (charAcc acc b j).getLsbD x = (acc.getLsbD x || (decide (x = j.val) && b.getLsbD 0)) := by
  unfold charAcc
  simp only [BitVec.getLsbD_or, BitVec.getLsbD_shiftLeft, BitVec.getLsbD_setWidth]
  by_cases hx : x = j.val
  · subst hx; simp
  · by_cases hlt : x < j.val
    · simp [hlt, hx]
    · have : b.getLsbD (x - j.val) = false := BitVec.getLsbD_of_ge _ _ (by omega)
      simp [this, hx]

theorem charOut_getLsbD (acc : Byte) (x : Nat) : (charOut acc).getLsbD x = acc.getLsbD x := by
  unfold charOut
  rw [BitVec.getLsbD_setWidth]
  by_cases h : x < 16
  · simp [h]
  · simp [h, BitVec.getLsbD_of_ge acc x (by omega)]

@[simp] theorem hdrBit_getLsbD (n : Word) (k : Fin 32) : (hdrBit n k).getLsbD 0 = n.getLsbD k.val := by simp [hdrBit]
@[simp] theorem charBit_getLsbD (c : CodeUnit) (j : Fin 8) : (charBit c j).getLsbD 0 = c.getLsbD j.val := by
  simp [charBit]
@[simp] theorem extractBit_getLsbD (byte : Byte) : (extractBit byte).getLsbD 0 = byte.getLsbD 0 := by
  simp [extractBit]

end Sys2Proof.Machine
end

