-- ==== Sys2Proof/Laws/Memory.lean ====
section
/-! SUPPORT. The laws of the canonical memory: a read after a write, and that a write keeps the canonical form. -/

namespace Sys2Proof.Machine

variable {w : Nat} {init m : List (Nat × BitVec w)} {a b depth : Nat} {v : BitVec w}

@[simp] theorem Memory.find_nil : Memory.find ([] : List (Nat × BitVec w)) a = none := rfl

@[simp] theorem Memory.find_cons (x : BitVec w) :
    Memory.find ((b, x) :: m) a = if b = a then some x else Memory.find m a := rfl

theorem Memory.find_append_of_none {m' : List (Nat × BitVec w)} (h : Memory.find m a = none) :
    Memory.find (m ++ m') a = Memory.find m' a := by
  induction m with
  | nil => rfl
  | cons c m ih =>
    obtain ⟨b, x⟩ := c
    simp only [Memory.find_cons] at h
    split at h
    · cases h
    · rename_i hb; simp [hb, ih h]

theorem Memory.find_entry_ne (h : a ≠ b) : Memory.find (Memory.entry init b v) a = none := by
  unfold Memory.entry
  split <;> simp [Ne.symm h]

/-- Below the first listed index of a canonical memory nothing is listed. -/
theorem Memory.find_eq_none_of_above (hw : Memory.wf init depth m = true) (ha : Memory.above a m = true) :
    Memory.find m a = none := by
  induction m with
  | nil => rfl
  | cons c m ih =>
    obtain ⟨b, x⟩ := c
    simp only [Memory.wf, Memory.above, Bool.and_eq_true, decide_eq_true_eq] at hw ha
    rw [Memory.find_cons, if_neg (by omega)]
    refine ih hw.2 ?_
    cases m with
    | nil => rfl
    | cons d m => simp only [Memory.above, decide_eq_true_eq] at hw ⊢; omega

theorem Memory.above_entry_append (ha : Memory.above a m = true) (hb : a < b) :
    Memory.above a (Memory.entry init b v ++ m) = true := by
  unfold Memory.entry
  split <;> simp_all [Memory.above]

theorem Memory.above_mono (ha : Memory.above b m = true) (h : a ≤ b) : Memory.above a m = true := by
  cases m with
  | nil => rfl
  | cons c m => simp only [Memory.above, decide_eq_true_eq] at ha ⊢; omega

theorem Memory.above_write (hw : Memory.wf init depth m = true) (ha : Memory.above a m = true) (hb : a < b) :
    Memory.above a (Memory.write init m b v) = true := by
  cases m with
  | nil => simpa [Memory.write] using Memory.above_entry_append (m := []) rfl hb
  | cons c m =>
    obtain ⟨d, x⟩ := c
    simp only [Memory.above, decide_eq_true_eq] at ha
    simp only [Memory.wf, Bool.and_eq_true, decide_eq_true_eq] at hw
    unfold Memory.write
    split
    · simpa [Memory.above] using ha
    · split
      · exact Memory.above_entry_append (Memory.above_mono hw.1.1.1 (by omega)) hb
      · exact Memory.above_entry_append (by simpa [Memory.above] using ha) hb

theorem Memory.wf_entry_append (hm : Memory.wf init depth m = true) (ha : Memory.above a m = true) (hd : a < depth) :
    Memory.wf init depth (Memory.entry init a v ++ m) = true := by
  unfold Memory.entry
  split <;> simp_all [Memory.wf]

/-- A write below the depth keeps the canonical form. -/
theorem Memory.wf_write (hm : Memory.wf init depth m = true) (hd : a < depth) :
    Memory.wf init depth (Memory.write init m a v) = true := by
  induction m with
  | nil => simpa [Memory.write] using Memory.wf_entry_append (m := []) rfl rfl hd
  | cons c m ih =>
    obtain ⟨b, x⟩ := c
    have hw := hm
    simp only [Memory.wf, Bool.and_eq_true, decide_eq_true_eq] at hw
    unfold Memory.write
    split
    · rename_i hb
      simp only [Memory.wf, Bool.and_eq_true, decide_eq_true_eq]
      exact ⟨⟨⟨Memory.above_write hw.2 hw.1.1.1 hb, hw.1.1.2⟩, hw.1.2⟩, ih hw.2⟩
    · split
      · rename_i hb; subst hb
        exact Memory.wf_entry_append hw.2 hw.1.1.1 hd
      · exact Memory.wf_entry_append hm (by simp only [Memory.above, decide_eq_true_eq]; omega) hd

theorem Memory.read_entry_append_self (ha : Memory.find m a = none) :
    Memory.read init (Memory.entry init a v ++ m) a = v := by
  unfold Memory.read Memory.entry
  split <;> simp_all

/-- A read of the index just written gives the value written. -/
@[simp] theorem Memory.read_write_self (hm : Memory.wf init depth m = true) :
    Memory.read init (Memory.write init m a v) a = v := by
  induction m with
  | nil => simpa [Memory.write] using Memory.read_entry_append_self (init := init) (m := []) (a := a) (v := v) rfl
  | cons c m ih =>
    obtain ⟨b, x⟩ := c
    have hw := hm
    simp only [Memory.wf, Bool.and_eq_true, decide_eq_true_eq] at hw
    unfold Memory.write
    split
    · have := ih hw.2
      unfold Memory.read at this ⊢
      rw [Memory.find_cons, if_neg (by omega), this]
    · split
      · rename_i hb; subst hb
        exact Memory.read_entry_append_self (Memory.find_eq_none_of_above hw.2 hw.1.1.1)
      · exact Memory.read_entry_append_self (Memory.find_eq_none_of_above hm
          (by simp only [Memory.above, decide_eq_true_eq]; omega))

/-- A write leaves every other index alone. -/
theorem Memory.read_write_of_ne (h : a ≠ b) :
    Memory.read init (Memory.write init m b v) a = Memory.read init m a := by
  induction m with
  | nil => simp [Memory.write, Memory.read, Memory.find_entry_ne h]
  | cons c m ih =>
    obtain ⟨d, x⟩ := c
    unfold Memory.write
    split
    · unfold Memory.read at ih ⊢
      simp only [Memory.find_cons]
      split <;> simp_all
    · split
      · rename_i hb; subst hb
        unfold Memory.read
        rw [Memory.find_append_of_none (Memory.find_entry_ne h), Memory.find_cons, if_neg (Ne.symm h)]
      · unfold Memory.read
        rw [Memory.find_append_of_none (Memory.find_entry_ne h)]

/-- Two canonical memories that read alike at every index are the same list. -/
theorem Memory.ext_of_read {m' : List (Nat × BitVec w)} (hm : Memory.wf init depth m = true)
    (hm' : Memory.wf init depth m' = true) (h : ∀ a, Memory.read init m a = Memory.read init m' a) : m = m' := by
  induction m generalizing m' with
  | nil =>
    cases m' with
    | nil => rfl
    | cons c m' =>
      obtain ⟨b, x⟩ := c
      have := h b
      simp only [Memory.wf, Bool.and_eq_true, decide_eq_true_eq] at hm'
      simp [Memory.read] at this
      exact absurd this.symm hm'.1.2
  | cons c m ih =>
    obtain ⟨b, x⟩ := c
    have hw := hm
    simp only [Memory.wf, Bool.and_eq_true, decide_eq_true_eq] at hw
    cases m' with
    | nil =>
      have := h b
      simp [Memory.read] at this
      exact absurd this hw.1.2
    | cons c' m' =>
      obtain ⟨b', x'⟩ := c'
      have hw' := hm'
      simp only [Memory.wf, Bool.and_eq_true, decide_eq_true_eq] at hw'
      have hb : b = b' := by
        rcases Nat.lt_trichotomy b b' with hlt | heq | hgt
        · have h1 := h b
          have h2 := Memory.find_eq_none_of_above hm' (a := b)
            (by simp only [Memory.above, decide_eq_true_eq]; omega)
          simp only [Memory.read, h2, Memory.find_cons, if_true, Option.getD_some, Option.getD_none] at h1
          exact absurd h1 hw.1.2
        · exact heq
        · have h1 := h b'
          have h2 := Memory.find_eq_none_of_above hm (a := b')
            (by simp only [Memory.above, decide_eq_true_eq]; omega)
          simp only [Memory.read, h2, Memory.find_cons, if_true, Option.getD_some, Option.getD_none] at h1
          exact absurd h1.symm hw'.1.2
      subst hb
      have hx : x = x' := by simpa [Memory.read] using h b
      subst hx
      congr 1
      refine ih hw.2 hw'.2 fun a => ?_
      by_cases ha : b = a
      · subst ha
        simp [Memory.read, Memory.find_eq_none_of_above hw.2 hw.1.1.1,
          Memory.find_eq_none_of_above hw'.2 hw'.1.1.1]
      · simpa [Memory.read, ha] using h a

end Sys2Proof.Machine
end

