-- ==== Sys2Proof/Laws/State.lean ====
section
/-! SUPPORT. What each named update of State leaves in each field. -/

namespace Sys2Proof.Machine

/-! ### `setCar` -/

@[simp] theorem setCar_cfg (a : Nat) (v : Byte) (s : State) : (s.setCar a v).cfg = s.cfg := rfl
@[simp] theorem setCar_phase (a : Nat) (v : Byte) (s : State) : (s.setCar a v).phase = s.phase := rfl
@[simp] theorem setCar_k (a : Nat) (v : Byte) (s : State) : (s.setCar a v).k = s.k := rfl
@[simp] theorem setCar_i (a : Nat) (v : Byte) (s : State) : (s.setCar a v).i = s.i := rfl
@[simp] theorem setCar_j (a : Nat) (v : Byte) (s : State) : (s.setCar a v).j = s.j := rfl
@[simp] theorem setCar_hacc (a : Nat) (v : Byte) (s : State) : (s.setCar a v).hacc = s.hacc := rfl
@[simp] theorem setCar_cacc (a : Nat) (v : Byte) (s : State) : (s.setCar a v).cacc = s.cacc := rfl
@[simp] theorem setCar_fault (a : Nat) (v : Byte) (s : State) : (s.setCar a v).fault = s.fault := rfl
@[simp] theorem setCar_faultCause (a : Nat) (v : Byte) (s : State) : (s.setCar a v).faultCause = s.faultCause := rfl
@[simp] theorem setCar_result (a : Nat) (v : Byte) (s : State) : (s.setCar a v).result = s.result := rfl
@[simp] theorem setCar_carLen (a : Nat) (v : Byte) (s : State) : (s.setCar a v).carLen = s.carLen := rfl
@[simp] theorem setCar_payLen (a : Nat) (v : Byte) (s : State) : (s.setCar a v).payLen = s.payLen := rfl
@[simp] theorem setCar_hdr (a : Nat) (v : Byte) (s : State) : (s.setCar a v).hdr = s.hdr := rfl
@[simp] theorem setCar_car (a : Nat) (v : Byte) (s : State) : (s.setCar a v).car = Memory.write s.cfg.ramInitCar s.car a v := rfl
@[simp] theorem setCar_pay (a : Nat) (v : Byte) (s : State) : (s.setCar a v).pay = s.pay := rfl
@[simp] theorem setCar_inputs (a : Nat) (v : Byte) (s : State) : (s.setCar a v).inputs = s.inputs := rfl
@[simp] theorem setCar_replies (a : Nat) (v : Byte) (s : State) : (s.setCar a v).replies = s.replies := rfl
@[simp] theorem setCar_draws (a : Nat) (v : Byte) (s : State) : (s.setCar a v).draws = s.draws := rfl

/-! ### `setPay` -/

@[simp] theorem setPay_cfg (n : Nat) (v : CodeUnit) (s : State) : (s.setPay n v).cfg = s.cfg := rfl
@[simp] theorem setPay_phase (n : Nat) (v : CodeUnit) (s : State) : (s.setPay n v).phase = s.phase := rfl
@[simp] theorem setPay_k (n : Nat) (v : CodeUnit) (s : State) : (s.setPay n v).k = s.k := rfl
@[simp] theorem setPay_i (n : Nat) (v : CodeUnit) (s : State) : (s.setPay n v).i = s.i := rfl
@[simp] theorem setPay_j (n : Nat) (v : CodeUnit) (s : State) : (s.setPay n v).j = s.j := rfl
@[simp] theorem setPay_hacc (n : Nat) (v : CodeUnit) (s : State) : (s.setPay n v).hacc = s.hacc := rfl
@[simp] theorem setPay_cacc (n : Nat) (v : CodeUnit) (s : State) : (s.setPay n v).cacc = s.cacc := rfl
@[simp] theorem setPay_fault (n : Nat) (v : CodeUnit) (s : State) : (s.setPay n v).fault = s.fault := rfl
@[simp] theorem setPay_faultCause (n : Nat) (v : CodeUnit) (s : State) : (s.setPay n v).faultCause = s.faultCause := rfl
@[simp] theorem setPay_result (n : Nat) (v : CodeUnit) (s : State) : (s.setPay n v).result = s.result := rfl
@[simp] theorem setPay_carLen (n : Nat) (v : CodeUnit) (s : State) : (s.setPay n v).carLen = s.carLen := rfl
@[simp] theorem setPay_payLen (n : Nat) (v : CodeUnit) (s : State) : (s.setPay n v).payLen = s.payLen := rfl
@[simp] theorem setPay_hdr (n : Nat) (v : CodeUnit) (s : State) : (s.setPay n v).hdr = s.hdr := rfl
@[simp] theorem setPay_car (n : Nat) (v : CodeUnit) (s : State) : (s.setPay n v).car = s.car := rfl
@[simp] theorem setPay_pay (n : Nat) (v : CodeUnit) (s : State) : (s.setPay n v).pay = Memory.write s.cfg.ramInitPay s.pay n v := rfl
@[simp] theorem setPay_inputs (n : Nat) (v : CodeUnit) (s : State) : (s.setPay n v).inputs = s.inputs := rfl
@[simp] theorem setPay_replies (n : Nat) (v : CodeUnit) (s : State) : (s.setPay n v).replies = s.replies := rfl
@[simp] theorem setPay_draws (n : Nat) (v : CodeUnit) (s : State) : (s.setPay n v).draws = s.draws := rfl

/-! ### `raiseResult` -/

@[simp] theorem raiseResult_cfg (r : Result) (s : State) : (raiseResult r s).cfg = s.cfg := rfl
@[simp] theorem raiseResult_phase (r : Result) (s : State) : (raiseResult r s).phase = s.phase := rfl
@[simp] theorem raiseResult_k (r : Result) (s : State) : (raiseResult r s).k = s.k := rfl
@[simp] theorem raiseResult_i (r : Result) (s : State) : (raiseResult r s).i = s.i := rfl
@[simp] theorem raiseResult_j (r : Result) (s : State) : (raiseResult r s).j = s.j := rfl
@[simp] theorem raiseResult_hacc (r : Result) (s : State) : (raiseResult r s).hacc = s.hacc := rfl
@[simp] theorem raiseResult_cacc (r : Result) (s : State) : (raiseResult r s).cacc = s.cacc := rfl
@[simp] theorem raiseResult_fault (r : Result) (s : State) : (raiseResult r s).fault = s.fault := rfl
@[simp] theorem raiseResult_faultCause (r : Result) (s : State) : (raiseResult r s).faultCause = s.faultCause := rfl
@[simp] theorem raiseResult_result (r : Result) (s : State) : (raiseResult r s).result = r := rfl
@[simp] theorem raiseResult_carLen (r : Result) (s : State) : (raiseResult r s).carLen = s.carLen := rfl
@[simp] theorem raiseResult_payLen (r : Result) (s : State) : (raiseResult r s).payLen = s.payLen := rfl
@[simp] theorem raiseResult_hdr (r : Result) (s : State) : (raiseResult r s).hdr = s.hdr := rfl
@[simp] theorem raiseResult_car (r : Result) (s : State) : (raiseResult r s).car = s.car := rfl
@[simp] theorem raiseResult_pay (r : Result) (s : State) : (raiseResult r s).pay = s.pay := rfl
@[simp] theorem raiseResult_inputs (r : Result) (s : State) : (raiseResult r s).inputs = s.inputs := rfl
@[simp] theorem raiseResult_replies (r : Result) (s : State) : (raiseResult r s).replies = s.replies := rfl
@[simp] theorem raiseResult_draws (r : Result) (s : State) : (raiseResult r s).draws = s.draws := rfl

/-! ### `finish` -/

@[simp] theorem finish_cfg (r : Result) (s : State) : (finish r s).cfg = s.cfg := rfl
@[simp] theorem finish_phase (r : Result) (s : State) : (finish r s).phase = .idle := rfl
@[simp] theorem finish_k (r : Result) (s : State) : (finish r s).k = s.k := rfl
@[simp] theorem finish_i (r : Result) (s : State) : (finish r s).i = s.i := rfl
@[simp] theorem finish_j (r : Result) (s : State) : (finish r s).j = s.j := rfl
@[simp] theorem finish_hacc (r : Result) (s : State) : (finish r s).hacc = s.hacc := rfl
@[simp] theorem finish_cacc (r : Result) (s : State) : (finish r s).cacc = s.cacc := rfl
@[simp] theorem finish_fault (r : Result) (s : State) : (finish r s).fault = s.fault := rfl
@[simp] theorem finish_faultCause (r : Result) (s : State) : (finish r s).faultCause = s.faultCause := rfl
@[simp] theorem finish_result (r : Result) (s : State) : (finish r s).result = r := rfl
@[simp] theorem finish_carLen (r : Result) (s : State) : (finish r s).carLen = s.carLen := rfl
@[simp] theorem finish_payLen (r : Result) (s : State) : (finish r s).payLen = s.payLen := rfl
@[simp] theorem finish_hdr (r : Result) (s : State) : (finish r s).hdr = s.hdr := rfl
@[simp] theorem finish_car (r : Result) (s : State) : (finish r s).car = s.car := rfl
@[simp] theorem finish_pay (r : Result) (s : State) : (finish r s).pay = s.pay := rfl
@[simp] theorem finish_inputs (r : Result) (s : State) : (finish r s).inputs = s.inputs := rfl
@[simp] theorem finish_replies (r : Result) (s : State) : (finish r s).replies = s.replies := rfl
@[simp] theorem finish_draws (r : Result) (s : State) : (finish r s).draws = s.draws := rfl

/-! ### `answer` -/

@[simp] theorem answer_cfg (r : Reply) (s : State) : (answer r s).cfg = s.cfg := rfl
@[simp] theorem answer_phase (r : Reply) (s : State) : (answer r s).phase = s.phase := rfl
@[simp] theorem answer_k (r : Reply) (s : State) : (answer r s).k = s.k := rfl
@[simp] theorem answer_i (r : Reply) (s : State) : (answer r s).i = s.i := rfl
@[simp] theorem answer_j (r : Reply) (s : State) : (answer r s).j = s.j := rfl
@[simp] theorem answer_hacc (r : Reply) (s : State) : (answer r s).hacc = s.hacc := rfl
@[simp] theorem answer_cacc (r : Reply) (s : State) : (answer r s).cacc = s.cacc := rfl
@[simp] theorem answer_fault (r : Reply) (s : State) : (answer r s).fault = s.fault := rfl
@[simp] theorem answer_faultCause (r : Reply) (s : State) : (answer r s).faultCause = s.faultCause := rfl
@[simp] theorem answer_result (r : Reply) (s : State) : (answer r s).result = s.result := rfl
@[simp] theorem answer_carLen (r : Reply) (s : State) : (answer r s).carLen = s.carLen := rfl
@[simp] theorem answer_payLen (r : Reply) (s : State) : (answer r s).payLen = s.payLen := rfl
@[simp] theorem answer_hdr (r : Reply) (s : State) : (answer r s).hdr = s.hdr := rfl
@[simp] theorem answer_car (r : Reply) (s : State) : (answer r s).car = s.car := rfl
@[simp] theorem answer_pay (r : Reply) (s : State) : (answer r s).pay = s.pay := rfl
@[simp] theorem answer_inputs (r : Reply) (s : State) : (answer r s).inputs = s.inputs := rfl
@[simp] theorem answer_replies (r : Reply) (s : State) : (answer r s).replies = r :: s.replies := rfl
@[simp] theorem answer_draws (r : Reply) (s : State) : (answer r s).draws = s.draws := rfl

/-! ### `takeEvent` -/

@[simp] theorem takeEvent_cfg (s : State) : (s.takeEvent).cfg = s.cfg := rfl
@[simp] theorem takeEvent_phase (s : State) : (s.takeEvent).phase = s.phase := rfl
@[simp] theorem takeEvent_k (s : State) : (s.takeEvent).k = s.k := rfl
@[simp] theorem takeEvent_i (s : State) : (s.takeEvent).i = s.i := rfl
@[simp] theorem takeEvent_j (s : State) : (s.takeEvent).j = s.j := rfl
@[simp] theorem takeEvent_hacc (s : State) : (s.takeEvent).hacc = s.hacc := rfl
@[simp] theorem takeEvent_cacc (s : State) : (s.takeEvent).cacc = s.cacc := rfl
@[simp] theorem takeEvent_fault (s : State) : (s.takeEvent).fault = s.fault := rfl
@[simp] theorem takeEvent_faultCause (s : State) : (s.takeEvent).faultCause = s.faultCause := rfl
@[simp] theorem takeEvent_result (s : State) : (s.takeEvent).result = s.result := rfl
@[simp] theorem takeEvent_carLen (s : State) : (s.takeEvent).carLen = s.carLen := rfl
@[simp] theorem takeEvent_payLen (s : State) : (s.takeEvent).payLen = s.payLen := rfl
@[simp] theorem takeEvent_hdr (s : State) : (s.takeEvent).hdr = s.hdr := rfl
@[simp] theorem takeEvent_car (s : State) : (s.takeEvent).car = s.car := rfl
@[simp] theorem takeEvent_pay (s : State) : (s.takeEvent).pay = s.pay := rfl
@[simp] theorem takeEvent_inputs (s : State) : (s.takeEvent).inputs = s.inputs.tail := rfl
@[simp] theorem takeEvent_replies (s : State) : (s.takeEvent).replies = s.replies := rfl
@[simp] theorem takeEvent_draws (s : State) : (s.takeEvent).draws = s.draws := rfl

/-! ### `assertReset` -/

@[simp] theorem assertReset_cfg (s : State) : (assertReset s).cfg = s.cfg := rfl
@[simp] theorem assertReset_phase (s : State) : (assertReset s).phase = .idle := rfl
@[simp] theorem assertReset_k (s : State) : (assertReset s).k = 0 := rfl
@[simp] theorem assertReset_i (s : State) : (assertReset s).i = 0 := rfl
@[simp] theorem assertReset_j (s : State) : (assertReset s).j = 0 := rfl
@[simp] theorem assertReset_hacc (s : State) : (assertReset s).hacc = 0 := rfl
@[simp] theorem assertReset_cacc (s : State) : (assertReset s).cacc = 0 := rfl
@[simp] theorem assertReset_fault (s : State) : (assertReset s).fault = false := rfl
@[simp] theorem assertReset_faultCause (s : State) : (assertReset s).faultCause = .none := rfl
@[simp] theorem assertReset_result (s : State) : (assertReset s).result = .none := rfl
@[simp] theorem assertReset_carLen (s : State) : (assertReset s).carLen = 0 := rfl
@[simp] theorem assertReset_payLen (s : State) : (assertReset s).payLen = 0 := rfl
@[simp] theorem assertReset_hdr (s : State) : (assertReset s).hdr = 0 := rfl
@[simp] theorem assertReset_car (s : State) : (assertReset s).car = s.car := rfl
@[simp] theorem assertReset_pay (s : State) : (assertReset s).pay = s.pay := rfl
@[simp] theorem assertReset_inputs (s : State) : (assertReset s).inputs = s.inputs := rfl
@[simp] theorem assertReset_replies (s : State) : (assertReset s).replies = s.replies := rfl
@[simp] theorem assertReset_draws (s : State) : (assertReset s).draws = s.draws := rfl

/-! ### `State.powerOn` -/

@[simp] theorem powerOn_cfg (c : Config) : (State.powerOn c).cfg = c := rfl
@[simp] theorem powerOn_phase (c : Config) : (State.powerOn c).phase = .idle := rfl
@[simp] theorem powerOn_k (c : Config) : (State.powerOn c).k = 0 := rfl
@[simp] theorem powerOn_i (c : Config) : (State.powerOn c).i = 0 := rfl
@[simp] theorem powerOn_j (c : Config) : (State.powerOn c).j = 0 := rfl
@[simp] theorem powerOn_hacc (c : Config) : (State.powerOn c).hacc = 0 := rfl
@[simp] theorem powerOn_cacc (c : Config) : (State.powerOn c).cacc = 0 := rfl
@[simp] theorem powerOn_fault (c : Config) : (State.powerOn c).fault = false := rfl
@[simp] theorem powerOn_faultCause (c : Config) : (State.powerOn c).faultCause = .none := rfl
@[simp] theorem powerOn_result (c : Config) : (State.powerOn c).result = .none := rfl
@[simp] theorem powerOn_carLen (c : Config) : (State.powerOn c).carLen = 0 := rfl
@[simp] theorem powerOn_payLen (c : Config) : (State.powerOn c).payLen = 0 := rfl
@[simp] theorem powerOn_hdr (c : Config) : (State.powerOn c).hdr = 0 := rfl
@[simp] theorem powerOn_car (c : Config) : (State.powerOn c).car = [] := rfl
@[simp] theorem powerOn_pay (c : Config) : (State.powerOn c).pay = [] := rfl
@[simp] theorem powerOn_inputs (c : Config) : (State.powerOn c).inputs = [] := rfl
@[simp] theorem powerOn_replies (c : Config) : (State.powerOn c).replies = [] := rfl
@[simp] theorem powerOn_draws (c : Config) : (State.powerOn c).draws = 0 := rfl

/-! ### Reading memory after an update that leaves it -/

@[simp] theorem carAt_setPay (s : State) (n : Nat) (v : CodeUnit) (a : Nat) : (s.setPay n v).carAt a = s.carAt a := rfl
@[simp] theorem payAt_setCar (s : State) (n : Nat) (v : Byte) (a : Nat) : (s.setCar n v).payAt a = s.payAt a := rfl
@[simp] theorem carAt_takeEvent (s : State) (a : Nat) : s.takeEvent.carAt a = s.carAt a := rfl
@[simp] theorem payAt_takeEvent (s : State) (n : Nat) : s.takeEvent.payAt n = s.payAt n := rfl
@[simp] theorem carAt_assertReset (s : State) (a : Nat) : (assertReset s).carAt a = s.carAt a := rfl
@[simp] theorem payAt_assertReset (s : State) (n : Nat) : (assertReset s).payAt n = s.payAt n := rfl

end Sys2Proof.Machine
end

