-- ==== Sys2Proof/Laws/Ops.lean ====
section
/-! SUPPORT. For each shared operation, what it can do. -/

namespace Sys2Proof.Machine

variable {s t : State}

/-! ### Busy -/

@[simp] theorem busy_eq_false_iff : s.busy = false ↔ s.phase = .idle := by simp [State.busy]
@[simp] theorem busy_iff : s.busy = true ↔ s.phase ≠ .idle := by simp [State.busy]
@[simp] theorem blockEnabled_iff : s.blockEnabled = true ↔ s.phase ≠ .idle ∧ s.fault = false := by
  simp [State.blockEnabled]

/-! ### The block's access primitives -/

@[simp] theorem inCar_iff (a : Int) : s.inCar a = true ↔ 0 ≤ a ∧ a < s.cfg.carDepth := by simp [State.inCar]

theorem memRead_of_lt {a : Int} (h0 : 0 ≤ a) (h : a < s.cfg.carDepth) : memRead s a = some (s.carAt a.toNat) := by
  simp [memRead, h0, h]

theorem insertAt_of_lt {a : Int} (v : Bit) (h0 : 0 ≤ a) (h : a < s.cfg.carDepth) :
    insertAt s a v = some (s.setCar a.toNat (insertBit (s.carAt a.toNat) v)) := by
  simp [insertAt, memRead, memWrite, h0, h]

/-- What an encode slot step's read-modify-write does, if it does anything. -/
theorem insertAt_eq_some {a : Int} {v : Bit} (h : insertAt s a v = some t) :
    0 ≤ a ∧ a < s.cfg.carDepth ∧ t = s.setCar a.toNat (insertBit (s.carAt a.toNat) v) := by
  unfold insertAt memRead at h
  split at h
  · cases h
  · rename_i b hb
    split at hb
    · rename_i hc
      cases hb
      rw [inCar_iff] at hc
      refine ⟨hc.1, hc.2, ?_⟩
      simpa [memWrite, hc.1, hc.2] using h.symm
    · cases hb

theorem payRead_of_lt {n : Nat} (h : n < s.cfg.payDepth) : payRead s n = some (s.payAt n) := by simp [payRead, h]

theorem payWrite_of_lt {n : Nat} (v : CodeUnit) (h : n < s.cfg.payDepth) : payWrite s n v = some (s.setPay n v) := by
  simp [payWrite, h]

/-! ### Reading memory after a write -/

theorem carAt_setCar_of_wf (hw : Memory.wf s.cfg.ramInitCar s.cfg.carDepth s.car = true) (a b : Nat) (v : Byte) :
    (s.setCar a v).carAt b = if b = a then v else s.carAt b := by
  unfold State.carAt State.setCar
  split
  · subst b; exact Memory.read_write_self hw
  · exact Memory.read_write_of_ne ‹_›

theorem payAt_setPay_of_wf (hw : Memory.wf s.cfg.ramInitPay s.cfg.payDepth s.pay = true) (a b : Nat) (v : CodeUnit) :
    (s.setPay a v).payAt b = if b = a then v else s.payAt b := by
  unfold State.payAt State.setPay
  split
  · subst b; exact Memory.read_write_self hw
  · exact Memory.read_write_of_ne ‹_›

/-! ### Faults -/

theorem raiseFault_of_fault (c : FaultCause) (h : s.fault = true) : raiseFault c s = s := by simp [raiseFault, h]

theorem raiseFault_of_not_fault (c : FaultCause) (h : s.fault = false) :
    raiseFault c s = { s with fault := true, faultCause := c } := by simp [raiseFault, h]

/-- A fault changes FAULT and FAULT_CAUSE alone. -/
theorem raiseFault_frame (c : FaultCause) (s : State) :
    raiseFault c s = { s with fault := true, faultCause := if s.fault then s.faultCause else c } := by
  unfold raiseFault
  split
  · rename_i h; cases s; simp_all
  · rfl

/-! ### The guard of the host transactions -/

theorem guarded_of_fault (act : State → State) (h : s.fault = true) : guarded act s = s := by simp [guarded, h]

theorem guarded_of_busy (act : State → State) (h : s.fault = false) (hb : s.phase ≠ .idle) :
    guarded act s = { s with fault := true, faultCause := .hazard } := by
  simp [guarded, raiseFault, h, hb, State.busy]

theorem guarded_of_ready (act : State → State) (h : s.fault = false) (hb : s.phase = .idle) :
    guarded act s = act s := by simp [guarded, h, hb, State.busy]

/-- Everything a guarded transaction can do. -/
theorem guarded_cases (act : State → State) (s : State) :
    (s.fault = true ∧ guarded act s = s) ∨
    (s.fault = false ∧ s.phase ≠ .idle ∧ guarded act s = { s with fault := true, faultCause := .hazard }) ∨
    (s.fault = false ∧ s.phase = .idle ∧ guarded act s = act s) := by
  cases hf : s.fault
  · by_cases hp : s.phase = .idle
    · exact .inr (.inr ⟨rfl, hp, guarded_of_ready act hf hp⟩)
    · exact .inr (.inl ⟨rfl, hp, guarded_of_busy act hf hp⟩)
  · exact .inl ⟨rfl, guarded_of_fault act hf⟩

end Sys2Proof.Machine
end

