-- ==== Sys2Proof/Laws/Step.lean ====
section
/-! SUPPORT. What a step does, event by event, and what each BLOCK step does on operands that pass the command's
checks. -/

namespace Sys2Proof.Machine

variable {s t : State} {e : Event} {es : List Event}

/-! ### Taking the next event -/

theorem nextEvent_cons (h : s.inputs = e :: es) : s.nextEvent = e := by simp [State.nextEvent, h]

theorem takeEvent_cons (h : s.inputs = e :: es) : s.takeEvent = { s with inputs := es } := by
  simp [State.takeEvent, h]

theorem takeEvent_nil (h : s.inputs = []) : s.takeEvent = s := by cases s; simp_all [State.takeEvent]

theorem step_cons (h : s.inputs = e :: es) : step s = perform e { s with inputs := es } := by
  rw [step, nextEvent_cons h, takeEvent_cons h]

theorem step_nil (h : s.inputs = []) : step s = blockTurn s := by
  rw [step, takeEvent_nil h]; simp [State.nextEvent, h, perform]

theorem step_block (h : s.nextEvent = .block) : step s = blockTurn s.takeEvent := by rw [step, h, perform]

/-- Every event of the inputs is the next one or a BLOCK turn is taken without one. -/
theorem inputs_of_nextEvent (h : s.nextEvent ≠ .block) : s.inputs = s.nextEvent :: s.inputs.tail := by
  unfold State.nextEvent at h ⊢
  cases hi : s.inputs <;> simp_all

/-! ### The BLOCK turn -/

theorem blockTurn_of_enabled (hp : s.phase ≠ .idle) (hf : s.fault = false) : blockTurn s = phaseStep s := by
  simp [blockTurn, hp, hf]

theorem blockTurn_of_not_enabled (h : s.phase = .idle ∨ s.fault = true) : blockTurn s = .next s := by
  rcases h with h | h <;> simp [blockTurn, State.blockEnabled, State.busy, h]

/-! ### The BLOCK steps on operands that pass the checks -/

theorem encodeHeaderStep_eq (hL : 32 ≤ s.carLen.toNat) (hd : s.carLen.toNat ≤ s.cfg.carDepth) :
    encodeHeaderStep s = .next (encodeHeaderAdvance (s.setCar (s.carLen.toNat - 1 - s.k.val)
      (insertBit (s.carAt (s.carLen.toNat - 1 - s.k.val)) (hdrBit s.payLen s.k)))) := by
  have h0 := hdrSlot_nonneg s.k hL
  have h1 := hdrSlot_lt (L := s.carLen.toNat) s.k
  rw [encodeHeaderStep, insertAt_of_lt _ h0 (by omega), hdrSlot_toNat]

theorem encodePayloadStep_eq (hL : 32 + 8 * s.payLen.toNat ≤ s.carLen.toNat) (hd : s.carLen.toNat ≤ s.cfg.carDepth)
    (hn : s.payLen.toNat ≤ s.cfg.payDepth) (hi : s.i.val < s.payLen.toNat) :
    encodePayloadStep s = .next (encodePayloadAdvance (s.setCar (s.carLen.toNat - 33 - 8 * s.i.val - s.j.val)
      (insertBit (s.carAt (s.carLen.toNat - 33 - 8 * s.i.val - s.j.val)) (charBit (s.payAt s.i.val) s.j)))) := by
  have h0 := paySlot_nonneg s.j hi hL
  have h1 := paySlot_lt (L := s.carLen.toNat) (i := s.i.val) s.j
  rw [encodePayloadStep, payRead_of_lt (by omega)]
  simp only [insertAt_of_lt _ h0 (by omega : paySlot s.carLen.toNat s.i.val s.j < s.cfg.carDepth), paySlot_toNat]

theorem decodeHeaderStep_eq (hL : 32 ≤ s.carLen.toNat) (hd : s.carLen.toNat ≤ s.cfg.carDepth) :
    decodeHeaderStep s = .next (decodeHeaderAdvance { s with
      hacc := hdrAcc s.hacc (extractBit (s.carAt (s.carLen.toNat - 1 - s.k.val))) s.k }) := by
  have h0 := hdrSlot_nonneg s.k hL
  have h1 := hdrSlot_lt (L := s.carLen.toNat) s.k
  rw [decodeHeaderStep, memRead_of_lt h0 (by omega), hdrSlot_toNat]

theorem decodePayloadStep_eq (hL : 32 + 8 * s.hacc.toNat ≤ s.carLen.toNat) (hd : s.carLen.toNat ≤ s.cfg.carDepth)
    (hi : s.i.val < s.hacc.toNat) :
    decodePayloadStep s = decodePayloadStore
      (charAcc s.cacc (extractBit (s.carAt (s.carLen.toNat - 33 - 8 * s.i.val - s.j.val))) s.j) s := by
  have h0 := paySlot_nonneg s.j hi hL
  have h1 := paySlot_lt (L := s.carLen.toNat) (i := s.i.val) s.j
  rw [decodePayloadStep, memRead_of_lt h0 (by omega), paySlot_toNat]

theorem decodePayloadStore_of_lt (acc : Byte) (hj : s.j.val < 7) :
    decodePayloadStore acc s = .next { s with cacc := acc, j := s.j + 1 } := by
  rw [decodePayloadStore, if_pos hj]

theorem decodePayloadStore_of_last (acc : Byte) (hj : s.j.val = 7) (hi : s.i.val < s.cfg.payDepth) :
    decodePayloadStore acc s = .next (decodePayloadAdvance (s.setPay s.i.val (charOut acc))) := by
  rw [decodePayloadStore, if_neg (by omega), payWrite_of_lt _ hi]

/-! ### The end of a run -/

@[simp] theorem final_iff :
    s.final = true ↔ s.phase = .idle ∧ (∀ e ∈ s.inputs, e.isTransaction = false) ∧ s.fault = false := by
  simp [State.final, and_assoc]

@[simp] theorem isTransaction_host (x : Transaction) : (Event.host x).isTransaction = true := rfl
@[simp] theorem isTransaction_block : Event.block.isTransaction = false := rfl
@[simp] theorem isTransaction_reset : Event.reset.isTransaction = false := rfl

theorem carContents_getElem? (a : Nat) :
    s.carContents[a]? = if a < s.cfg.carDepth then some (s.carAt a) else none := by
  simp only [State.carContents, List.getElem?_map]
  split <;> simp_all

theorem payContents_getElem? (n : Nat) :
    s.payContents[n]? = if n < s.cfg.payDepth then some (s.payAt n) else none := by
  simp only [State.payContents, List.getElem?_map]
  split <;> simp_all

@[simp] theorem carContents_length : s.carContents.length = s.cfg.carDepth := by simp [State.carContents]

@[simp] theorem payContents_length : s.payContents.length = s.cfg.payDepth := by simp [State.payContents]

/-! ### Runs -/

@[simp] theorem run_zero : run 0 s = .next s := rfl

theorem run_succ_of_step {m : Nat} (h : step s = .next t) : run (m + 1) s = run m t := by simp [run, h]

theorem run_add_of_run {m p : Nat} (h : run m s = .next t) : run (m + p) s = run p t := by
  induction m generalizing s with
  | zero => simp only [run_zero, Host.Outcome.next.injEq] at h; subst h; simp
  | succ m ih =>
    rw [Nat.add_right_comm]
    cases hs : step s with
    | next u => rw [run_succ_of_step hs] at h ⊢; exact ih h
    | fault r => simp [run, hs] at h
    | refused r => simp [run, hs] at h

/-- One more step at the end of a run. -/
theorem run_succ_last {m : Nat} {u : State} (h : run m s = .next t) (hs : step t = .next u) :
    run (m + 1) s = .next u := by
  rw [run_add_of_run h, run_succ_of_step hs]; rfl

end Sys2Proof.Machine
end

