-- ==== Sys2Proof/Laws/Invariant.lean ====
section
/-! SUPPORT. The invariant through each operation: what each part of a step needs to keep it. -/

namespace Sys2Proof.Machine

variable {s t : State}

/-- An idle phase asks nothing. -/
theorem phaseInv_of_idle (h : s.phase = .idle) : s.PhaseInv := by simp [State.PhaseInv, h]

/-- The invariant looks at neither the inputs, the replies nor the draws. -/
theorem State.Inv.of_model_fields (h : s.Inv) (is : List Event) (rs : List Reply) (d : Nat) :
    State.Inv { s with inputs := is, replies := rs, draws := d } :=
  ⟨h.cfg_wf, h.car_wf, h.pay_wf, h.cause_iff, h.phase_inv⟩

theorem State.Inv.takeEvent (h : s.Inv) : s.takeEvent.Inv := h.of_model_fields _ _ _

theorem State.Inv.powerOn {c : Config} (h : c.wf = true) : (State.powerOn c).Inv :=
  ⟨h, rfl, rfl, by simp, by simp [State.PhaseInv]⟩

theorem State.Inv.assertReset (h : s.Inv) : (assertReset s).Inv :=
  ⟨h.cfg_wf, h.car_wf, h.pay_wf, by simp, by simp [State.PhaseInv]⟩

theorem State.Inv.raiseFault (h : s.Inv) {c : FaultCause} (hc : c ≠ .none) : (raiseFault c s).Inv := by
  cases hf : s.fault
  · rw [raiseFault_of_not_fault c hf]
    exact ⟨h.cfg_wf, h.car_wf, h.pay_wf, by simp [hc], h.phase_inv⟩
  · rwa [raiseFault_of_fault c hf]

/-- A guarded transaction keeps the invariant if its act on an idle block without a fault does. -/
theorem State.Inv.guarded (h : s.Inv) {act : State → State} (ha : s.ready → (act s).Inv) : (guarded act s).Inv := by
  rcases guarded_cases act s with ⟨_, he⟩ | ⟨hf, _, he⟩ | ⟨hf, hp, he⟩ <;> rw [he]
  · exact h
  · exact ⟨h.cfg_wf, h.car_wf, h.pay_wf, by simp, h.phase_inv⟩
  · exact ha ⟨hp, hf⟩

theorem State.Inv.setCar (h : s.Inv) {a : Nat} (ha : a < s.cfg.carDepth) (v : Byte) : (s.setCar a v).Inv :=
  ⟨h.cfg_wf, Memory.wf_write h.car_wf ha, h.pay_wf, h.cause_iff, h.phase_inv⟩

theorem State.Inv.setPay (h : s.Inv) {n : Nat} (hn : n < s.cfg.payDepth) (v : CodeUnit) : (s.setPay n v).Inv :=
  ⟨h.cfg_wf, h.car_wf, Memory.wf_write h.pay_wf hn, h.cause_iff, h.phase_inv⟩

/-- The invariant of a state that differs from `s` in registers and sequencer only. -/
theorem State.Inv.of_frame (h : s.Inv) (hc : t.cfg = s.cfg) (hcar : t.car = s.car) (hpay : t.pay = s.pay)
    (hf : t.fault = s.fault) (hfc : t.faultCause = s.faultCause) (hp : t.PhaseInv) : t.Inv :=
  ⟨by rw [hc]; exact h.cfg_wf, by rw [hc, hcar]; exact h.car_wf, by rw [hc, hpay]; exact h.pay_wf,
    by rw [hf, hfc]; exact h.cause_iff, hp⟩

theorem encodeStart_inv (h : s.Inv) (hr : s.ready) : (encodeStart s).Inv := by
  unfold encodeStart
  split
  · exact h.of_frame rfl rfl rfl rfl rfl (by simp [State.PhaseInv, hr.1])
  · split
    · exact h.of_frame rfl rfl rfl rfl rfl (by simp [State.PhaseInv, hr.1])
    · exact h.of_frame rfl rfl rfl rfl rfl (by simp_all [State.PhaseInv])

theorem decodeStart_inv (h : s.Inv) (hr : s.ready) : (decodeStart s).Inv := by
  unfold decodeStart
  split
  · exact h.of_frame rfl rfl rfl rfl rfl (by simp [State.PhaseInv, hr.1])
  · split
    · exact h.of_frame rfl rfl rfl rfl rfl (by simp [State.PhaseInv, hr.1])
    · exact h.of_frame rfl rfl rfl rfl rfl (by simp_all [State.PhaseInv])

/-- The carrier length and count of a running ENCODE header phase pass the command's checks. -/
theorem State.Inv.encHdr (h : s.Inv) (hp : s.phase = .encHdr) :
    s.carLen.toNat ≤ s.cfg.carDepth ∧ s.payLen.toNat ≤ s.cfg.payDepth ∧
      32 + 8 * s.payLen.toNat ≤ s.carLen.toNat ∧ s.result = .none := by
  have := h.phase_inv
  simp only [State.PhaseInv, hp, inDepth_iff, fits_iff] at this
  tauto

theorem State.Inv.encPay (h : s.Inv) (hp : s.phase = .encPay) :
    s.carLen.toNat ≤ s.cfg.carDepth ∧ s.payLen.toNat ≤ s.cfg.payDepth ∧
      32 + 8 * s.payLen.toNat ≤ s.carLen.toNat ∧ s.i.val < s.payLen.toNat ∧ s.result = .none := by
  have := h.phase_inv
  simp only [State.PhaseInv, hp, inDepth_iff, fits_iff] at this
  tauto

theorem State.Inv.decHdr (h : s.Inv) (hp : s.phase = .decHdr) :
    s.carLen.toNat ≤ s.cfg.carDepth ∧ 32 ≤ s.carLen.toNat ∧ s.result = .none := by
  have := h.phase_inv
  simp only [State.PhaseInv, hp, inDepth_iff, fits_iff] at this
  exact ⟨this.1.1, by omega, this.2.2⟩

theorem State.Inv.decPay (h : s.Inv) (hp : s.phase = .decPay) :
    s.carLen.toNat ≤ s.cfg.carDepth ∧ s.hacc.toNat ≤ s.cfg.payDepth ∧
      32 + 8 * s.hacc.toNat ≤ s.carLen.toNat ∧ s.i.val < s.hacc.toNat ∧ s.result = .none := by
  have := h.phase_inv
  simp only [State.PhaseInv, hp, inDepth_iff, fits_iff] at this
  tauto

end Sys2Proof.Machine
end

