-- ==== Sys2Proof/Laws/DecodeLoop.lean ====
section
/-! SUPPORT. The state of a running DECODE after each number of BLOCK steps, for the header value `h` that bit 0 of the
last 32 carrier bytes spells. -/

namespace Sys2Proof.Machine

variable {s u : State} {h : Word}

/-- `h` is the header value that bit 0 of the last 32 carrier bytes spells. -/
def State.spells (s : State) (h : Word) : Prop :=
  ∀ k : Fin 32, h.getLsbD k.val = (s.carAt (s.carLen.toNat - 1 - k.val)).getLsbD 0

/-- Bit `b` of the entry DECODE writes for character `n`. -/
def State.deposited (s : State) (n b : Nat) : Bool :=
  decide (b < 8) && (s.carAt (s.carLen.toNat - 33 - 8 * n - b)).getLsbD 0

/-- `u` is a DECODE from `s` after `m` BLOCK steps, still running. -/
structure DecodeAt (s : State) (h : Word) (m : Nat) (u : State) : Prop where
  frame : u = { s with
    pay := u.pay, result := .none, phase := u.phase, k := u.k, i := u.i, j := u.j, hacc := u.hacc, cacc := u.cacc }
  wf : Memory.wf s.cfg.ramInitPay s.cfg.payDepth u.pay = true
  place :
    (m < 32 ∧ u.phase = .decHdr ∧ u.k.val = m ∧ u.pay = s.pay ∧ u.cacc = 0 ∧
      ∀ x, u.hacc.getLsbD x = (decide (x < m) && h.getLsbD x)) ∨
    (32 ≤ m ∧ u.phase = .decPay ∧ 32 + 8 * u.i.val + u.j.val = m ∧ u.i.val < h.toNat ∧ u.hacc = h ∧
      (∀ x, u.cacc.getLsbD x = (decide (x < u.j.val) && s.deposited u.i.val x)) ∧
      (∀ n, n < u.i.val → ∀ b, (u.payAt n).getLsbD b = s.deposited n b) ∧
      (∀ n, u.i.val ≤ n → u.payAt n = s.payAt n))

/-- `u` is a DECODE from `s` that has completed OK with the header `h`. -/
structure DecodeDone (s : State) (h : Word) (u : State) : Prop where
  frame : u = { s with
    pay := u.pay, result := .ok, hdr := h, payLen := h, k := u.k, i := u.i, j := u.j, hacc := h, cacc := 0 }
  wf : Memory.wf s.cfg.ramInitPay s.cfg.payDepth u.pay = true
  pay : ∀ n, n < h.toNat → ∀ b, (u.payAt n).getLsbD b = s.deposited n b
  rest : ∀ n, h.toNat ≤ n → u.payAt n = s.payAt n

theorem decodeStart_of_accepted (ha : s.decodeAccepted) :
    decodeStart s = { s with result := .none, k := 0, i := 0, j := 0, hacc := 0, cacc := 0, phase := .decHdr } := by
  obtain ⟨_, h1, h2⟩ := ha
  have hd : inDepth s.cfg s.carLen.toNat 0 = true := (inDepth_iff _ _ _).2 ⟨h1, by omega⟩
  have hf : fits s.carLen.toNat 0 = true := (fits_iff _ _).2 (by omega)
  simp [decodeStart, hd, hf]

/-- DECODE accepted: the header phase starts. -/
theorem execDecode_of_accepted (ha : s.decodeAccepted) :
    execDecode s =
      .next { s with result := .none, k := 0, i := 0, j := 0, hacc := 0, cacc := 0, phase := .decHdr } := by
  rw [execDecode, guarded_of_ready _ ha.1.2 ha.1.1, decodeStart_of_accepted ha]

theorem decodeAt_zero (hI : s.Inv) :
    DecodeAt s h 0 { s with result := .none, k := 0, i := 0, j := 0, hacc := 0, cacc := 0, phase := .decHdr } where
  frame := rfl
  wf := hI.pay_wf
  place := .inl ⟨by omega, rfl, rfl, rfl, rfl, by simp⟩

/-- A header step of a DECODE accumulates the bit of its slot. -/
theorem DecodeAt.hacc_step {m : Nat} (hs : s.spells h) (hm : m < 32) (hk : u.k.val = m) (hcar : ∀ a, u.carAt a = s.carAt a)
    (hacc : ∀ x, u.hacc.getLsbD x = (decide (x < m) && h.getLsbD x)) (x : Nat) :
    (hdrAcc u.hacc (extractBit (u.carAt (s.carLen.toNat - 1 - m))) u.k).getLsbD x =
      (decide (x < m + 1) && h.getLsbD x) := by
  rw [hdrAcc_getLsbD, hacc, extractBit_getLsbD, hcar, hk]
  by_cases hx : x = m
  · subst hx
    have := hs ⟨x, hm⟩
    rw [← this]; simp
  · simp only [hx, decide_false, Bool.false_and, Bool.or_false]
    congr 1; rw [decide_eq_decide]; omega

/-- A DECODE header step, but the last one. -/
theorem DecodeAt.header_step {m : Nat} (hs : s.spells h) (ha : s.decodeAccepted) (hi : s.inputs = [])
    (hu : DecodeAt s h m u) (hm : m < 31) : ∃ t, step u = .next t ∧ DecodeAt s h (m + 1) t := by
  obtain ⟨⟨_, hf⟩, hd, hL⟩ := ha
  have hcfg : u.cfg = s.cfg := by rw [hu.frame]
  have hcl : u.carLen = s.carLen := by rw [hu.frame]
  have hcar : ∀ a, u.carAt a = s.carAt a := by intro n; rw [hu.frame]; rfl
  have hin : u.inputs = [] := by rw [hu.frame]; exact hi
  have hfu : u.fault = false := by rw [hu.frame]; exact hf
  rcases hu.place with ⟨hm', hp, hk, hpay, hc, hh⟩ | ⟨hm', _⟩
  · rw [step_nil hin, blockTurn_of_enabled (by simp [hp]) hfu, phaseStep, hp]
    simp only []
    rw [decodeHeaderStep_eq (by rw [hcl]; omega) (by rw [hcl, hcfg]; exact hd), hcl, hk]
    refine ⟨_, rfl, ?_⟩
    have hacc := DecodeAt.hacc_step hs hm' hk hcar hh
    unfold decodeHeaderAdvance
    simp only [hk]
    rw [if_pos hm]
    refine ⟨?_, hu.wf, .inl ⟨by omega, hp, ?_, hpay, hc, hacc⟩⟩
    · rw [hu.frame]
    · simp only [Fin.val_add, hk]; omega
  · omega

/-- The last DECODE header step, up to the evaluation of the header. -/
theorem DecodeAt.header_last (hs : s.spells h) (ha : s.decodeAccepted) (hi : s.inputs = [])
    (hu : DecodeAt s h 31 u) : step u = .next (decodeHeaderEvaluate { u with hacc := h }) := by
  obtain ⟨⟨_, hf⟩, hd, hL⟩ := ha
  have hcfg : u.cfg = s.cfg := by rw [hu.frame]
  have hcl : u.carLen = s.carLen := by rw [hu.frame]
  have hcar : ∀ a, u.carAt a = s.carAt a := by intro n; rw [hu.frame]; rfl
  have hin : u.inputs = [] := by rw [hu.frame]; exact hi
  have hfu : u.fault = false := by rw [hu.frame]; exact hf
  rcases hu.place with ⟨hm', hp, hk, hpay, hc, hh⟩ | ⟨hm', _⟩
  · rw [step_nil hin, blockTurn_of_enabled (by simp [hp]) hfu, phaseStep, hp]
    simp only []
    rw [decodeHeaderStep_eq (by rw [hcl]; omega) (by rw [hcl, hcfg]; exact hd),
      show u.carLen.toNat - 1 - u.k.val = s.carLen.toNat - 1 - 31 by rw [hcl, hk]]
    have hacc : hdrAcc u.hacc (extractBit (u.carAt (s.carLen.toNat - 1 - 31))) u.k = h := by
      apply BitVec.eq_of_getLsbD_eq
      intro x hx
      rw [DecodeAt.hacc_step hs hm' hk hcar hh]
      simp [hx]
    rw [hacc, decodeHeaderAdvance, if_neg (by simp [hk]), hp]
  · omega

/-- A DECODE payload step, but the last one. -/
theorem DecodeAt.payload_step {m : Nat} (ha : s.decodeAccepted) (hi : s.inputs = []) (hL : 32 + 8 * h.toNat ≤ s.carLen.toNat)
    (hn : h.toNat ≤ s.cfg.payDepth) (hu : DecodeAt s h m u) (h32 : 32 ≤ m) (hm : m + 1 < 32 + 8 * h.toNat) :
    ∃ t, step u = .next t ∧ DecodeAt s h (m + 1) t := by
  obtain ⟨⟨_, hf⟩, hd, _⟩ := ha
  have hcfg : u.cfg = s.cfg := by rw [hu.frame]
  have hcl : u.carLen = s.carLen := by rw [hu.frame]
  have hcar : ∀ a, u.carAt a = s.carAt a := by intro n; rw [hu.frame]; rfl
  have hin : u.inputs = [] := by rw [hu.frame]; exact hi
  have hfu : u.fault = false := by rw [hu.frame]; exact hf
  rcases hu.place with ⟨hm', _⟩ | ⟨hm', hp, hij, hih, hh, hc, hlo, hhi⟩
  · omega
  · have hj := u.j.isLt
    rw [step_nil hin, blockTurn_of_enabled (by simp [hp]) hfu, phaseStep, hp]
    simp only []
    rw [decodePayloadStep_eq (by rw [hh, hcl]; exact hL) (by rw [hcl, hcfg]; exact hd) (by rw [hh]; exact hih), hcl]
    have hacc : ∀ x, (charAcc u.cacc (extractBit (u.carAt (s.carLen.toNat - 33 - 8 * u.i.val - u.j.val))) u.j).getLsbD x =
        (decide (x < u.j.val + 1) && s.deposited u.i.val x) := by
      intro x
      rw [charAcc_getLsbD, hc, extractBit_getLsbD, hcar]
      by_cases hx : x = u.j.val
      · subst hx; simp [State.deposited]
      · simp only [hx, decide_false, Bool.false_and, Bool.or_false]
        congr 1; rw [decide_eq_decide]; omega
    by_cases hlt : u.j.val < 7
    · rw [decodePayloadStore_of_lt _ hlt]
      refine ⟨_, rfl, ?_, hu.wf, .inr ⟨by omega, hp, ?_, hih, hh, ?_, hlo, hhi⟩⟩
      · rw [hu.frame]
      · simp only [Fin.val_add]; omega
      · intro x; rw [hacc]; congr 1; rw [decide_eq_decide]; simp only [Fin.val_add]; omega
    · rw [decodePayloadStore_of_last _ (by omega) (by rw [hcfg]; omega)]
      refine ⟨_, rfl, ?_⟩
      unfold decodePayloadAdvance
      simp only [setPay_i, setPay_hacc, hh]
      rw [if_pos (by omega)]
      have hi1 : (u.i + 1).val = u.i.val + 1 := by
        have := h.isLt
        simp only [Fin.val_add]; omega
      have hwu : Memory.wf u.cfg.ramInitPay u.cfg.payDepth u.pay = true := by rw [hcfg]; exact hu.wf
      have hset := payAt_setPay_of_wf hwu u.i.val
      refine ⟨?_, ?_, .inr ⟨by omega, hp, ?_, ?_, rfl, ?_, ?_, ?_⟩⟩
      · rw [hu.frame]; rfl
      · simp only [setPay_pay]; rw [hcfg]; exact Memory.wf_write hu.wf (by omega)
      · simp only [hi1, Fin.val_zero]; omega
      · simp only [hi1]; omega
      · simp
      · intro n hn' b
        simp only [hi1] at hn'
        refine (congrArg (·.getLsbD b) (hset n _)).trans ?_
        split
        · rename_i hni; subst hni
          rw [charOut_getLsbD, hacc]
          by_cases hb : b < 8
          · simp; omega
          · simp [State.deposited, hb]
        · exact hlo n (by omega) b
      · intro n hn'
        simp only [hi1] at hn'
        refine (hset n _).trans ?_
        rw [if_neg (by omega)]
        exact hhi n (by omega)

/-- The last DECODE payload step completes it. -/
theorem DecodeAt.payload_last {m : Nat} (ha : s.decodeAccepted) (hi : s.inputs = []) (hL : 32 + 8 * h.toNat ≤ s.carLen.toNat)
    (hn : h.toNat ≤ s.cfg.payDepth) (hu : DecodeAt s h m u) (h32 : 32 ≤ m) (hm : m + 1 = 32 + 8 * h.toNat) :
    ∃ t, step u = .next t ∧ DecodeDone s h t := by
  obtain ⟨⟨hp0, hf⟩, hd, _⟩ := ha
  have hcfg : u.cfg = s.cfg := by rw [hu.frame]
  have hcl : u.carLen = s.carLen := by rw [hu.frame]
  have hcar : ∀ a, u.carAt a = s.carAt a := by intro n; rw [hu.frame]; rfl
  have hin : u.inputs = [] := by rw [hu.frame]; exact hi
  have hfu : u.fault = false := by rw [hu.frame]; exact hf
  rcases hu.place with ⟨hm', _⟩ | ⟨hm', hp, hij, hih, hh, hc, hlo, hhi⟩
  · omega
  · have hj := u.j.isLt
    rw [step_nil hin, blockTurn_of_enabled (by simp [hp]) hfu, phaseStep, hp]
    simp only []
    rw [decodePayloadStep_eq (by rw [hh, hcl]; exact hL) (by rw [hcl, hcfg]; exact hd) (by rw [hh]; exact hih), hcl]
    have hacc : ∀ x, (charAcc u.cacc (extractBit (u.carAt (s.carLen.toNat - 33 - 8 * u.i.val - u.j.val))) u.j).getLsbD x =
        (decide (x < u.j.val + 1) && s.deposited u.i.val x) := by
      intro x
      rw [charAcc_getLsbD, hc, extractBit_getLsbD, hcar]
      by_cases hx : x = u.j.val
      · subst hx; simp [State.deposited]
      · simp only [hx, decide_false, Bool.false_and, Bool.or_false]
        congr 1; rw [decide_eq_decide]; omega
    rw [decodePayloadStore_of_last _ (by omega) (by rw [hcfg]; omega)]
    refine ⟨_, rfl, ?_⟩
    unfold decodePayloadAdvance
    simp only [setPay_i, setPay_hacc, hh]
    rw [if_neg (by omega)]
    have hwu : Memory.wf u.cfg.ramInitPay u.cfg.payDepth u.pay = true := by rw [hcfg]; exact hu.wf
    have hset := payAt_setPay_of_wf hwu u.i.val
    refine ⟨?_, ?_, ?_, ?_⟩
    · rw [hu.frame]; simp [decodeComplete, finish, State.setPay, hp0, ← hh]
    · simp only [decodeComplete, finish, setPay_pay]; rw [hcfg]; exact Memory.wf_write hu.wf (by omega)
    · intro n hn' b
      refine (congrArg (·.getLsbD b) (hset n _)).trans ?_
      split
      · rename_i hni; subst hni
        rw [charOut_getLsbD, hacc]
        by_cases hb : b < 8
        · simp; omega
        · simp [State.deposited, hb]
      · exact hlo n (by omega) b
    · intro n hn'
      refine (hset n _).trans ?_
      rw [if_neg (by omega)]
      exact hhi n (by omega)

/-- An accepted DECODE after `m` header steps, before the last one. -/
theorem run_decode_header {m : Nat} (hI : s.Inv) (hs : s.spells h) (ha : s.decodeAccepted) (hi : s.inputs = [])
    (hm : m < 32) :
    ∃ u, run m { s with result := .none, k := 0, i := 0, j := 0, hacc := 0, cacc := 0, phase := .decHdr } = .next u ∧
      DecodeAt s h m u := by
  induction m with
  | zero => exact ⟨_, rfl, decodeAt_zero hI⟩
  | succ m ih =>
    obtain ⟨u, hr, hu⟩ := ih (by omega)
    obtain ⟨t, ht, hd⟩ := hu.header_step hs ha hi (by omega)
    exact ⟨t, run_succ_last hr ht, hd⟩

/-- An accepted DECODE after its 32 header steps. -/
theorem run_decode_evaluate (hI : s.Inv) (hs : s.spells h) (ha : s.decodeAccepted) (hi : s.inputs = []) :
    ∃ u, run 32 { s with result := .none, k := 0, i := 0, j := 0, hacc := 0, cacc := 0, phase := .decHdr } =
        .next (decodeHeaderEvaluate { u with hacc := h }) ∧ DecodeAt s h 31 u := by
  obtain ⟨u, hr, hu⟩ := run_decode_header (m := 31) hI hs ha hi (by omega)
  exact ⟨u, run_succ_last hr (hu.header_last hs ha hi), hu⟩

/-- An accepted DECODE whose header is not 0 and fits, after `m` BLOCK steps, before its last one. -/
theorem run_decode {m : Nat} (hI : s.Inv) (hs : s.spells h) (ha : s.decodeAccepted) (hi : s.inputs = [])
    (hL : 32 + 8 * h.toNat ≤ s.carLen.toNat) (hn : h.toNat ≤ s.cfg.payDepth) (hm : m < 32 + 8 * h.toNat) :
    ∃ u, run m { s with result := .none, k := 0, i := 0, j := 0, hacc := 0, cacc := 0, phase := .decHdr } = .next u ∧
      DecodeAt s h m u := by
  induction m with
  | zero => exact ⟨_, rfl, decodeAt_zero hI⟩
  | succ m ih =>
    by_cases h32 : m < 31
    · exact run_decode_header hI hs ha hi (by omega)
    · by_cases h31 : m = 31
      · subst h31
        obtain ⟨u, hr, hu⟩ := run_decode_evaluate hI hs ha hi
        refine ⟨_, hr, ?_⟩
        have hcfg : u.cfg = s.cfg := by rw [hu.frame]
        have hcl : u.carLen = s.carLen := by rw [hu.frame]
        rcases hu.place with ⟨_, hp, hk, hpay, hc, hh⟩ | ⟨hm', _⟩
        · unfold decodeHeaderEvaluate
          simp only [hcfg, hcl]
          rw [if_neg (by omega), if_neg (by simp; omega)]
          refine ⟨?_, hu.wf, .inr ⟨by omega, rfl, rfl, by simp only [Fin.val_zero]; omega, rfl, by simp, by simp, ?_⟩⟩
          · rw [hu.frame]
          · intro n _
            simp only [State.payAt, hpay]
        · omega
      · obtain ⟨u, hr, hu⟩ := ih (by omega)
        obtain ⟨t, ht, hd⟩ := hu.payload_step ha hi hL hn (by omega) (by omega)
        exact ⟨t, run_succ_last hr ht, hd⟩

/-- An accepted DECODE whose header is not 0 and fits, after all its BLOCK steps. -/
theorem run_decode_all (hI : s.Inv) (hs : s.spells h) (ha : s.decodeAccepted) (hi : s.inputs = [])
    (hL : 32 + 8 * h.toNat ≤ s.carLen.toNat) (hn : h.toNat ≤ s.cfg.payDepth) (h0 : 0 < h.toNat) :
    ∃ u, run (32 + 8 * h.toNat)
        { s with result := .none, k := 0, i := 0, j := 0, hacc := 0, cacc := 0, phase := .decHdr } = .next u ∧
      DecodeDone s h u := by
  obtain ⟨u, hr, hu⟩ := run_decode (m := 31 + 8 * h.toNat) hI hs ha hi hL hn (by omega)
  obtain ⟨t, ht, hd⟩ := hu.payload_last ha hi hL hn (by omega) (by omega)
  refine ⟨t, ?_, hd⟩
  rw [show 32 + 8 * h.toNat = (31 + 8 * h.toNat) + 1 by omega]
  exact run_succ_last hr ht

end Sys2Proof.Machine
end

