-- ==== Sys2Proof/Laws/EncodeLoop.lean ====
section
/-! SUPPORT. The state of a running ENCODE after each number of BLOCK steps. Slot number x is header bit x for
x < 32, and bit (x - 32) % 8 of character (x - 32) / 8 above; it stands at offset CAR_LEN - 1 - x. -/

namespace Sys2Proof.Machine

variable {s u : State}

/-- The data bit that ENCODE writes into slot number `x`. -/
def State.slotBit (s : State) (x : Nat) : Bool :=
  if x < 32 then s.payLen.getLsbD x else (s.payAt ((x - 32) / 8)).getLsbD ((x - 32) % 8)

/-- The carrier byte at `a` after the first `m` slot writes of an ENCODE from `s`. -/
def State.carAfter (s : State) (m a : Nat) : Byte :=
  if a < s.carLen.toNat ∧ s.carLen.toNat ≤ a + m then
    insertBit (s.carAt a) (BitVec.ofBool (s.slotBit (s.carLen.toNat - 1 - a)))
  else s.carAt a

/-- `u` is an ENCODE from `s` after `m` BLOCK steps, still running. -/
structure EncodeAt (s : State) (m : Nat) (u : State) : Prop where
  frame : u = { s with car := u.car, result := .none, phase := u.phase, k := u.k, i := u.i, j := u.j }
  wf : Memory.wf s.cfg.ramInitCar s.cfg.carDepth u.car = true
  car : ∀ a, u.carAt a = s.carAfter m a
  place : (m < 32 ∧ u.phase = .encHdr ∧ u.k.val = m) ∨
    (32 ≤ m ∧ u.phase = .encPay ∧ 32 + 8 * u.i.val + u.j.val = m ∧ u.i.val < s.payLen.toNat)

/-- `u` is an ENCODE from `s` right after its last BLOCK step. -/
structure EncodeDone (s u : State) : Prop where
  frame : u = { s with car := u.car, result := .ok, hdr := s.payLen, k := u.k, i := u.i, j := u.j }
  wf : Memory.wf s.cfg.ramInitCar s.cfg.carDepth u.car = true
  car : ∀ a, u.carAt a = s.carAfter (32 + 8 * s.payLen.toNat) a

theorem encodeStart_of_accepted (h : s.encodeAccepted) :
    encodeStart s = { s with result := .none, k := 0, i := 0, j := 0, phase := .encHdr } := by
  obtain ⟨_, h1, h2, h3⟩ := h
  have hd : inDepth s.cfg s.carLen.toNat s.payLen.toNat = true := (inDepth_iff _ _ _).2 ⟨h1, h2⟩
  have hf : fits s.carLen.toNat s.payLen.toNat = true := (fits_iff _ _).2 h3
  simp [encodeStart, hd, hf]

/-- ENCODE accepted: the header phase starts. -/
theorem execEncode_of_accepted (h : s.encodeAccepted) :
    execEncode s = .next { s with result := .none, k := 0, i := 0, j := 0, phase := .encHdr } := by
  rw [execEncode, guarded_of_ready _ h.1.2 h.1.1, encodeStart_of_accepted h]

theorem carAfter_zero (a : Nat) : s.carAfter 0 a = s.carAt a := by
  rw [State.carAfter, if_neg (by omega)]

theorem encodeAt_zero (h : s.Inv) :
    EncodeAt s 0 { s with result := .none, k := 0, i := 0, j := 0, phase := .encHdr } where
  frame := rfl
  wf := h.car_wf
  car a := by rw [carAfter_zero]; rfl
  place := .inl ⟨by omega, rfl, rfl⟩

/-- One slot write moves the carrier on by one slot. -/
theorem EncodeAt.carAt_setCar {m : Nat} {v : Bit} (h : EncodeAt s m u) (hm : m < s.carLen.toNat)
    (hv : v = BitVec.ofBool (s.slotBit m)) (a : Nat) :
    (u.setCar (s.carLen.toNat - 1 - m) (insertBit (u.carAt (s.carLen.toNat - 1 - m)) v)).carAt a =
      s.carAfter (m + 1) a := by
  have hcfg : u.cfg = s.cfg := by rw [h.frame]
  rw [carAt_setCar_of_wf (by rw [hcfg]; exact h.wf), h.car, h.car, State.carAfter, State.carAfter, State.carAfter]
  by_cases ha : a = s.carLen.toNat - 1 - m
  · rw [if_pos ha, if_neg (by omega), if_pos (by omega), hv, ← ha]
    congr 3; omega
  · rw [if_neg ha]
    congr 1
    rw [eq_iff_iff]
    omega

theorem EncodeAt.wf_setCar {m : Nat} (h : EncodeAt s m u) (hd : s.carLen.toNat ≤ s.cfg.carDepth)
    (hm : m < s.carLen.toNat) (v : Byte) :
    Memory.wf s.cfg.ramInitCar s.cfg.carDepth (u.setCar (s.carLen.toNat - 1 - m) v).car = true := by
  have hcfg : u.cfg = s.cfg := by rw [h.frame]
  rw [setCar_car, hcfg]
  exact Memory.wf_write h.wf (by omega)

/-- A BLOCK step of a running ENCODE that is not its last one. -/
theorem EncodeAt.step {m : Nat} (ha : s.encodeAccepted) (hi : s.inputs = []) (h : EncodeAt s m u)
    (hm : m + 1 < 32 + 8 * s.payLen.toNat) : ∃ t, step u = .next t ∧ EncodeAt s (m + 1) t := by
  obtain ⟨⟨_, hf⟩, hd, hn, hL⟩ := ha
  have hcfg : u.cfg = s.cfg := by rw [h.frame]
  have hcl : u.carLen = s.carLen := by rw [h.frame]
  have hpl : u.payLen = s.payLen := by rw [h.frame]
  have hpay : ∀ n, u.payAt n = s.payAt n := by intro n; rw [h.frame]; rfl
  have hin : u.inputs = [] := by rw [h.frame]; exact hi
  have hfu : u.fault = false := by rw [h.frame]; exact hf
  rcases h.place with ⟨hm', hp, hk⟩ | ⟨hm', hp, hij, hic⟩
  · rw [step_nil hin, blockTurn_of_enabled (by simp [hp]) hfu, phaseStep, hp]
    simp only []
    rw [encodeHeaderStep_eq (by rw [hcl]; omega) (by rw [hcl, hcfg]; exact hd), hcl, hk]
    refine ⟨_, rfl, ?_⟩
    have hv : hdrBit u.payLen u.k = BitVec.ofBool (s.slotBit m) := by
      rw [hpl, hdrBit, State.slotBit, if_pos hm', hk]
    have hcar := h.carAt_setCar (by omega) hv
    have hwf := h.wf_setCar hd (by omega) (insertBit (u.carAt (s.carLen.toNat - 1 - m)) (hdrBit u.payLen u.k))
    unfold encodeHeaderAdvance
    simp only [setCar_k, setCar_payLen, hk, hpl] at hcar hwf ⊢
    by_cases hlt : m < 31
    · rw [if_pos hlt]
      refine ⟨?_, hwf, hcar, .inl ⟨by omega, hp, ?_⟩⟩
      · rw [h.frame]; rfl
      · simp only [Fin.val_add, hk]; omega
    · rw [if_neg hlt, if_neg (by omega)]
      refine ⟨?_, hwf, hcar, .inr ⟨by omega, rfl, ?_, ?_⟩⟩
      · rw [h.frame]; rfl
      · simp only [Fin.val_zero]; omega
      · simp only [Fin.val_zero]; omega
  · have hj := u.j.isLt
    rw [step_nil hin, blockTurn_of_enabled (by simp [hp]) hfu, phaseStep, hp]
    simp only []
    have ho : s.carLen.toNat - 33 - 8 * u.i.val - u.j.val = s.carLen.toNat - 1 - m := by omega
    rw [encodePayloadStep_eq (by rw [hpl, hcl]; exact hL) (by rw [hcl, hcfg]; exact hd) (by rw [hpl, hcfg]; exact hn)
      (by rw [hpl]; exact hic), hcl, ho]
    refine ⟨_, rfl, ?_⟩
    have hv : charBit (u.payAt u.i.val) u.j = BitVec.ofBool (s.slotBit m) := by
      rw [hpay, charBit, State.slotBit, if_neg (by omega)]
      congr 2
      · congr 1; omega
      · omega
    have hcar := h.carAt_setCar (by omega) hv
    have hwf := h.wf_setCar hd (by omega)
      (insertBit (u.carAt (s.carLen.toNat - 1 - m)) (charBit (u.payAt u.i.val) u.j))
    unfold encodePayloadAdvance
    simp only [setCar_j, setCar_i, setCar_payLen, hpl] at hcar hwf ⊢
    by_cases hlt : u.j.val < 7
    · rw [if_pos hlt]
      refine ⟨?_, hwf, hcar, .inr ⟨by omega, hp, ?_, hic⟩⟩
      · rw [h.frame]; rfl
      · simp only [Fin.val_add]; omega
    · rw [if_neg hlt, if_pos (by omega)]
      have hi1 : (u.i + 1).val = u.i.val + 1 := by
        have := s.payLen.isLt
        simp only [Fin.val_add]; omega
      refine ⟨?_, hwf, hcar, .inr ⟨by omega, hp, ?_, ?_⟩⟩
      · rw [h.frame]; rfl
      · simp only [hi1, Fin.val_zero]; omega
      · simp only [hi1]; omega

/-- The last BLOCK step of a running ENCODE completes it. -/
theorem EncodeAt.last {m : Nat} (ha : s.encodeAccepted) (hi : s.inputs = []) (h : EncodeAt s m u)
    (hm : m + 1 = 32 + 8 * s.payLen.toNat) : ∃ t, Machine.step u = .next t ∧ EncodeDone s t := by
  obtain ⟨⟨hp0, hf⟩, hd, hn, hL⟩ := ha
  have hcfg : u.cfg = s.cfg := by rw [h.frame]
  have hcl : u.carLen = s.carLen := by rw [h.frame]
  have hpl : u.payLen = s.payLen := by rw [h.frame]
  have hpay : ∀ n, u.payAt n = s.payAt n := by intro n; rw [h.frame]; rfl
  have hin : u.inputs = [] := by rw [h.frame]; exact hi
  have hfu : u.fault = false := by rw [h.frame]; exact hf
  rcases h.place with ⟨hm', hp, hk⟩ | ⟨hm', hp, hij, hic⟩
  · rw [step_nil hin, blockTurn_of_enabled (by simp [hp]) hfu, phaseStep, hp]
    simp only []
    rw [encodeHeaderStep_eq (by rw [hcl]; omega) (by rw [hcl, hcfg]; exact hd), hcl, hk]
    refine ⟨_, rfl, ?_⟩
    have hv : hdrBit u.payLen u.k = BitVec.ofBool (s.slotBit m) := by
      rw [hpl, hdrBit, State.slotBit, if_pos hm', hk]
    have hcar := h.carAt_setCar (by omega) hv
    have hwf := h.wf_setCar hd (by omega) (insertBit (u.carAt (s.carLen.toNat - 1 - m)) (hdrBit u.payLen u.k))
    unfold encodeHeaderAdvance
    simp only [setCar_k, setCar_payLen, hk, hpl] at hcar hwf ⊢
    rw [if_neg (by omega), if_pos (by omega)]
    refine ⟨?_, hwf, ?_⟩
    · rw [h.frame]; simp [encodeComplete, finish, State.setCar, hp0]
    · rw [← hm]; exact hcar
  · have hj := u.j.isLt
    rw [step_nil hin, blockTurn_of_enabled (by simp [hp]) hfu, phaseStep, hp]
    simp only []
    have ho : s.carLen.toNat - 33 - 8 * u.i.val - u.j.val = s.carLen.toNat - 1 - m := by omega
    rw [encodePayloadStep_eq (by rw [hpl, hcl]; exact hL) (by rw [hcl, hcfg]; exact hd) (by rw [hpl, hcfg]; exact hn)
      (by rw [hpl]; exact hic), hcl, ho]
    refine ⟨_, rfl, ?_⟩
    have hv : charBit (u.payAt u.i.val) u.j = BitVec.ofBool (s.slotBit m) := by
      rw [hpay, charBit, State.slotBit, if_neg (by omega)]
      congr 2
      · congr 1; omega
      · omega
    have hcar := h.carAt_setCar (by omega) hv
    have hwf := h.wf_setCar hd (by omega)
      (insertBit (u.carAt (s.carLen.toNat - 1 - m)) (charBit (u.payAt u.i.val) u.j))
    unfold encodePayloadAdvance
    simp only [setCar_j, setCar_i, setCar_payLen, hpl] at hcar hwf ⊢
    rw [if_neg (by omega), if_neg (by omega)]
    refine ⟨?_, hwf, ?_⟩
    · rw [h.frame]; simp [encodeComplete, finish, State.setCar, hp0]
    · rw [← hm]; exact hcar

/-- An accepted ENCODE after `m` BLOCK steps, before its last one. -/
theorem run_encode {m : Nat} (hI : s.Inv) (ha : s.encodeAccepted) (hi : s.inputs = [])
    (hm : m < 32 + 8 * s.payLen.toNat) :
    ∃ u, run m { s with result := .none, k := 0, i := 0, j := 0, phase := .encHdr } = .next u ∧ EncodeAt s m u := by
  induction m with
  | zero => exact ⟨_, rfl, encodeAt_zero hI⟩
  | succ m ih =>
    obtain ⟨u, hr, hu⟩ := ih (by omega)
    obtain ⟨t, hs, ht⟩ := hu.step ha hi hm
    exact ⟨t, run_succ_last hr hs, ht⟩

/-- An accepted ENCODE after all its BLOCK steps. -/
theorem run_encode_all (hI : s.Inv) (ha : s.encodeAccepted) (hi : s.inputs = []) :
    ∃ u, run (32 + 8 * s.payLen.toNat) { s with result := .none, k := 0, i := 0, j := 0, phase := .encHdr } = .next u ∧
      EncodeDone s u := by
  obtain ⟨u, hr, hu⟩ := run_encode (m := 31 + 8 * s.payLen.toNat) hI ha hi (by omega)
  obtain ⟨t, hs, ht⟩ := hu.last ha hi (by omega)
  refine ⟨t, ?_, ht⟩
  rw [show 32 + 8 * s.payLen.toNat = (31 + 8 * s.payLen.toNat) + 1 by omega]
  exact run_succ_last hr hs

end Sys2Proof.Machine
end

