-- ==== Sys2Proof/Laws/HostProgram.lean ====
section
/-! SUPPORT. The host's program: going past labels and IFs, and where that leads. -/

namespace Sys2Proof.Machine

variable {p : List HostStmt} {h : HostAgent} {y : HostSystem} {t : Transaction}

@[simp] theorem passAll_zero : h.passAll p 0 = h := rfl

@[simp] theorem passAll_succ (m : Nat) : h.passAll p (m + 1) = (h.pass p).passAll p m := rfl

theorem passAll_add (a b : Nat) : h.passAll p (a + b) = (h.passAll p a).passAll p b := by
  induction a generalizing h with
  | zero => rw [Nat.zero_add, passAll_zero]
  | succ a ih => rw [Nat.add_right_comm, passAll_succ, passAll_succ, ih]

/-- Past the end there is no transaction. -/
theorem pending?_of_length_le (hp : p.length ≤ h.place) : h.pending? p = none := by
  simp [HostAgent.pending?, List.getElem?_eq_none hp]

/-- Past the end the agent stays. -/
theorem pass_of_length_le (hp : p.length ≤ h.place) : h.pass p = h := by
  simp [HostAgent.pass, List.getElem?_eq_none hp]

/-- At a transaction the agent stays. -/
theorem pass_of_pending (ht : h.pending? p = some t) : h.pass p = h := by
  unfold HostAgent.pending? at ht
  unfold HostAgent.pass
  split
  · rename_i hx; simp [hx, HostStmt.transaction?] at ht
  · rename_i hx; simp [hx, HostStmt.transaction?] at ht
  · rfl

theorem passAll_of_pass_eq (hs : h.pass p = h) (m : Nat) : h.passAll p m = h := by
  induction m with
  | zero => rfl
  | succ m ih => rw [passAll_succ, hs, ih]

/-- Labels and IFs change nothing of what the host holds. -/
@[simp] theorem pass_held : (h.pass p).held = h.held := by
  unfold HostAgent.pass
  split <;> rfl

@[simp] theorem passAll_held (m : Nat) : (h.passAll p m).held = h.held := by
  induction m generalizing h with
  | zero => rfl
  | succ m ih => rw [passAll_succ, ih, pass_held]

/-- Two agents with the same values held that stand at the same place are the same. -/
theorem passAll_eq_of_place {i j : Nat} (hp : (h.passAll p i).place = (h.passAll p j).place) :
    h.passAll p i = h.passAll p j := by
  have hi := passAll_held (p := p) (h := h) i
  have hj := passAll_held (p := p) (h := h) j
  generalize h.passAll p i = a at *
  generalize h.passAll p j = b at *
  cases a; cases b; simp_all

/-- A transaction met once is still pending after any further number of passes. -/
theorem passAll_of_pending {m n : Nat} (ht : (h.passAll p m).pending? p = some t) (hmn : m ≤ n) :
    h.passAll p n = h.passAll p m := by
  obtain ⟨d, rfl⟩ := Nat.exists_eq_add_of_le hmn
  rw [passAll_add, passAll_of_pass_eq (pass_of_pending ht)]

/-- A transaction that the agent reaches at all, it reaches within as many passes as the program has statements: before
it, no place is visited twice. -/
theorem exists_passAll_le_length {m : Nat} (ht : (h.passAll p m).pending? p = some t) :
    ∃ m', m' ≤ p.length ∧ h.passAll p m' = h.passAll p m := by
  induction m using Nat.strong_induction_on with
  | _ m ih =>
    by_cases hm : m ≤ p.length
    · exact ⟨m, hm, rfl⟩
    · have hin : ∀ i, i ≤ m → (h.passAll p i).place < p.length := by
        intro i hi
        by_contra hc
        obtain ⟨d, rfl⟩ := Nat.exists_eq_add_of_le hi
        have hge : p.length ≤ (h.passAll p i).place := by omega
        rw [passAll_add, passAll_of_pass_eq (pass_of_length_le hge), pending?_of_length_le hge] at ht
        cases ht
      let f : Fin (p.length + 1) → Fin p.length := fun i => ⟨(h.passAll p i.val).place, hin _ (by omega)⟩
      obtain ⟨i, j, hne, hij⟩ := Fintype.exists_ne_map_eq_of_card_lt f (by simp)
      have shorten : ∀ i j : Fin (p.length + 1), i.val < j.val → f i = f j →
          ∃ m', m' ≤ p.length ∧ h.passAll p m' = h.passAll p m := by
        intro i j hlt hfij
        have he : h.passAll p i.val = h.passAll p j.val := passAll_eq_of_place (congrArg Fin.val hfij)
        have hcut : h.passAll p (i.val + (m - j.val)) = h.passAll p m := by
          rw [passAll_add, he, ← passAll_add, show j.val + (m - j.val) = m by omega]
        obtain ⟨m', hm', hm''⟩ := ih (i.val + (m - j.val)) (by omega) (by rw [hcut]; exact ht)
        exact ⟨m', hm', hm''.trans hcut⟩
      rcases Nat.lt_or_gt_of_ne (fun hv => hne (Fin.ext hv)) with hlt | hlt
      · exact shorten i j hlt hij
      · exact shorten j i hlt hij.symm

/-- A transaction reached at all is the next one. -/
theorem nextTransaction?_of_pending {m : Nat} (ht : (h.passAll p m).pending? p = some t) :
    h.nextTransaction? p = some t := by
  obtain ⟨m', hle, he⟩ := exists_passAll_le_length ht
  rw [← he] at ht
  rw [HostAgent.nextTransaction?, passAll_of_pending ht hle, ht]

/-- A host turn at a label or an IF, or past the end, changes the agent alone. -/
theorem hostTurn_of_not_pending (hn : y.agent.pending? p = none) :
    y.hostTurn p = .next { y with agent := y.agent.pass p } := by
  rw [HostSystem.hostTurn, hn]

end Sys2Proof.Machine
end

