-- ==== Sys2Proof/Laws/Inversion.lean ====
section
/-! SUPPORT. Everything a host transaction, and everything a BLOCK step, can do: cited instead of unfolding either. -/

namespace Sys2Proof.Machine

variable {s t : State} {x : Transaction}

/-! ### Frames of the sequencer's advances: registers and sequencer only -/

theorem encodeHeaderAdvance_frame (s : State) :
    encodeHeaderAdvance s = { s with
      phase := (encodeHeaderAdvance s).phase, k := (encodeHeaderAdvance s).k, i := (encodeHeaderAdvance s).i,
      j := (encodeHeaderAdvance s).j, hdr := (encodeHeaderAdvance s).hdr, result := (encodeHeaderAdvance s).result } := by
  unfold encodeHeaderAdvance
  repeat' split
  all_goals rfl

theorem encodePayloadAdvance_frame (s : State) :
    encodePayloadAdvance s = { s with
      phase := (encodePayloadAdvance s).phase, i := (encodePayloadAdvance s).i, j := (encodePayloadAdvance s).j,
      hdr := (encodePayloadAdvance s).hdr, result := (encodePayloadAdvance s).result } := by
  unfold encodePayloadAdvance
  repeat' split
  all_goals rfl

theorem decodeHeaderAdvance_frame (s : State) :
    decodeHeaderAdvance s = { s with
      phase := (decodeHeaderAdvance s).phase, k := (decodeHeaderAdvance s).k, i := (decodeHeaderAdvance s).i,
      j := (decodeHeaderAdvance s).j, cacc := (decodeHeaderAdvance s).cacc, hdr := (decodeHeaderAdvance s).hdr,
      payLen := (decodeHeaderAdvance s).payLen, result := (decodeHeaderAdvance s).result } := by
  unfold decodeHeaderAdvance decodeHeaderEvaluate
  repeat' split
  all_goals rfl

theorem decodePayloadAdvance_frame (s : State) :
    decodePayloadAdvance s = { s with
      phase := (decodePayloadAdvance s).phase, i := (decodePayloadAdvance s).i, j := (decodePayloadAdvance s).j,
      cacc := (decodePayloadAdvance s).cacc, hdr := (decodePayloadAdvance s).hdr,
      payLen := (decodePayloadAdvance s).payLen, result := (decodePayloadAdvance s).result } := by
  unfold decodePayloadAdvance
  repeat' split
  all_goals rfl

theorem encodeStart_frame (s : State) :
    encodeStart s = { s with
      phase := (encodeStart s).phase, k := (encodeStart s).k, i := (encodeStart s).i, j := (encodeStart s).j,
      result := (encodeStart s).result } := by
  unfold encodeStart
  repeat' split
  all_goals rfl

theorem decodeStart_frame (s : State) :
    decodeStart s = { s with
      phase := (decodeStart s).phase, k := (decodeStart s).k, i := (decodeStart s).i, j := (decodeStart s).j,
      hacc := (decodeStart s).hacc, cacc := (decodeStart s).cacc, result := (decodeStart s).result } := by
  unfold decodeStart
  repeat' split
  all_goals rfl

/-! ### BLOCK steps -/

/-- Everything a BLOCK step can do, from any state. -/
theorem phaseStep_cases (h : phaseStep s = .next t) :
    (s.phase = .idle ∧ t = s) ∨
    (s.phase = .encHdr ∧ ∃ a : Nat, a = s.carLen.toNat - 1 - s.k.val ∧ a < s.cfg.carDepth ∧
      t = encodeHeaderAdvance (s.setCar a (insertBit (s.carAt a) (hdrBit s.payLen s.k)))) ∨
    (s.phase = .encPay ∧ ∃ a : Nat, a = s.carLen.toNat - 33 - 8 * s.i.val - s.j.val ∧ a < s.cfg.carDepth ∧
      t = encodePayloadAdvance (s.setCar a (insertBit (s.carAt a) (charBit (s.payAt s.i.val) s.j)))) ∨
    (s.phase = .decHdr ∧ t = decodeHeaderAdvance { s with
      hacc := hdrAcc s.hacc (extractBit (s.carAt (s.carLen.toNat - 1 - s.k.val))) s.k }) ∨
    (s.phase = .decPay ∧ ∃ acc : Byte,
      acc = charAcc s.cacc (extractBit (s.carAt (s.carLen.toNat - 33 - 8 * s.i.val - s.j.val))) s.j ∧
      ((s.j.val < 7 ∧ t = { s with cacc := acc, j := s.j + 1 }) ∨
       (s.j.val = 7 ∧ s.i.val < s.cfg.payDepth ∧ t = decodePayloadAdvance (s.setPay s.i.val (charOut acc))))) := by
  unfold phaseStep at h
  split at h
  · cases h; exact .inl ⟨‹_›, rfl⟩
  · unfold encodeHeaderStep at h
    split at h <;> cases h
    rename_i hp _ _ hi
    obtain ⟨h0, h1, rfl⟩ := insertAt_eq_some hi
    exact .inr (.inl ⟨hp, _, hdrSlot_toNat _, by omega, rfl⟩)
  · unfold encodePayloadStep payRead at h
    split at h <;> [cases h; skip]
    split at h <;> cases h
    rename_i hp _ _ hc _ _ hi
    obtain ⟨h0, h1, rfl⟩ := insertAt_eq_some hi
    split at hc <;> cases hc
    exact .inr (.inr (.inl ⟨hp, _, paySlot_toNat _, by omega, rfl⟩))
  · unfold decodeHeaderStep memRead at h
    split at h <;> cases h
    rename_i hp _ b hb
    split at hb <;> cases hb
    exact .inr (.inr (.inr (.inl ⟨hp, by rw [hdrSlot_toNat]⟩)))
  · unfold decodePayloadStep memRead at h
    split at h <;> [cases h; skip]
    rename_i hp _ b hb
    split at hb <;> cases hb
    refine .inr (.inr (.inr (.inr ⟨hp, _, rfl, ?_⟩)))
    rw [paySlot_toNat] at h
    by_cases hj : s.j.val < 7
    · rw [decodePayloadStore_of_lt _ hj] at h
      cases h
      exact .inl ⟨hj, rfl⟩
    · have hj7 : s.j.val = 7 := by omega
      by_cases hd : s.i.val < s.cfg.payDepth
      · rw [decodePayloadStore_of_last _ hj7 hd] at h
        cases h
        exact .inr ⟨hj7, hd, rfl⟩
      · rw [decodePayloadStore, if_neg hj, payWrite, if_neg hd] at h
        cases h

/-! ### Host transactions -/

/-- Why a host transaction raises a fault on a block without one (60_exceptions R185 to R187). -/
inductive HostMisuse (s : State) : Transaction → FaultCause → Prop where
  | hazard {x : Transaction} (hb : s.phase ≠ .idle) (hx : ∀ idx, x ≠ .regRead idx) : HostMisuse s x .hazard
  | badRead {idx : Nat} (h : 5 ≤ idx) : HostMisuse s (.regRead idx) .badReg
  | badWrite {idx : Nat} {v : Word} (hp : s.phase = .idle) (h : idx = 1 ∨ 4 ≤ idx) : HostMisuse s (.regWrite idx v) .badReg
  | carRead {a : Nat} (hp : s.phase = .idle) (h : s.cfg.carDepth ≤ a) : HostMisuse s (.carRead a) .badAddr
  | carWrite {a : Nat} {v : Byte} (hp : s.phase = .idle) (h : s.cfg.carDepth ≤ a) : HostMisuse s (.carWrite a v) .badAddr
  | payRead {n : Nat} (hp : s.phase = .idle) (h : s.cfg.payDepth ≤ n) : HostMisuse s (.payRead n) .badAddr
  | payWrite {n : Nat} {v : CodeUnit} (hp : s.phase = .idle) (h : s.cfg.payDepth ≤ n) : HostMisuse s (.payWrite n v) .badAddr

/-- Everything a host transaction can do to the block, but for replies and draws. -/
inductive HostEffect (s : State) : Transaction → State → Prop where
  | quiet {x : Transaction} : HostEffect s x s
  | misuse {x : Transaction} {c : FaultCause} (hf : s.fault = false) (hm : HostMisuse s x c) :
      HostEffect s x { s with fault := true, faultCause := c }
  | carWrite {a : Nat} {v : Byte} (hr : s.ready) (h : a < s.cfg.carDepth) : HostEffect s (.carWrite a v) (s.setCar a v)
  | payWrite {n : Nat} {v : CodeUnit} (hr : s.ready) (h : n < s.cfg.payDepth) : HostEffect s (.payWrite n v) (s.setPay n v)
  | carLen {v : Word} (hr : s.ready) : HostEffect s (.regWrite 2 v) { s with carLen := v }
  | payLen {v : Word} (hr : s.ready) : HostEffect s (.regWrite 3 v) { s with payLen := v }
  | startEncode {w : Word} (hr : s.ready) (hw : decode w = .command .encode) : HostEffect s (.regWrite 0 w) (encodeStart s)
  | startDecode {w : Word} (hr : s.ready) (hw : decode w = .command .decode) : HostEffect s (.regWrite 0 w) (decodeStart s)
  | illegal {w : Word} {r : Reject} (hr : s.ready) (hw : decode w = .illegal r) :
      HostEffect s (.regWrite 0 w) { s with result := .illegalCommand }

/-- A guarded transaction other than RegRead does what its act does, or raises HAZARD, or nothing. -/
theorem guarded_effect {act : State → State} (hx : ∀ idx, x ≠ .regRead idx)
    (ha : s.ready → HostEffect s x (act s)) : HostEffect s x (guarded act s) := by
  rcases guarded_cases act s with ⟨_, he⟩ | ⟨hf, hp, he⟩ | ⟨hf, hp, he⟩ <;> rw [he]
  · exact .quiet
  · exact .misuse hf (.hazard hp hx)
  · exact ha ⟨hp, hf⟩

theorem raiseFault_effect {c : FaultCause} (hm : HostMisuse s x c) : HostEffect s x (raiseFault c s) := by
  cases hf : s.fault
  · rw [raiseFault_of_not_fault c hf]; exact .misuse hf hm
  · rw [raiseFault_of_fault c hf]; exact .quiet

theorem regValue?_eq_none {idx : Nat} (h : s.regValue? idx = none) : 5 ≤ idx := by
  unfold State.regValue? at h
  by_contra hc
  have : idx = 0 ∨ idx = 1 ∨ idx = 2 ∨ idx = 3 ∨ idx = 4 := by omega
  rcases this with rfl | rfl | rfl | rfl | rfl <;> simp at h

/-- Every host transaction answers a next state, and what it can do there. -/
theorem transact_effect (x : Transaction) (s : State) :
    ∃ t u, transact x s = .next t ∧ HostEffect s x u ∧ t = { u with replies := t.replies, draws := t.draws } := by
  cases x with
  | regRead idx =>
    simp only [transact, hostRegRead]
    cases hr : s.regValue? idx with
    | some v => exact ⟨_, s, rfl, .quiet, rfl⟩
    | none => exact ⟨_, _, rfl, raiseFault_effect (.badRead (regValue?_eq_none hr)), rfl⟩
  | regWrite idx v =>
    simp only [transact, hostRegWrite]
    by_cases h0 : idx = 0
    · subst h0
      simp only [if_true, hostCommandWrite]
      cases hw : decode v with
      | illegal r => exact ⟨_, _, rfl, guarded_effect (by simp) fun hr => .illegal hr hw, rfl⟩
      | command i =>
        cases i with
        | encode => exact ⟨_, _, rfl, guarded_effect (by simp) fun hr => .startEncode hr hw, rfl⟩
        | decode => exact ⟨_, _, rfl, guarded_effect (by simp) fun hr => .startDecode hr hw, rfl⟩
    · rw [if_neg h0]
      refine ⟨_, _, rfl, guarded_effect (by simp) fun hr => ?_, rfl⟩
      unfold configWrite
      split
      · rename_i h; subst h; exact .carLen hr
      · split
        · rename_i h; subst h; exact .payLen hr
        · exact raiseFault_effect (.badWrite hr.1 (by omega))
  | carRead a =>
    simp only [transact, hostCarRead]
    split
    · exact ⟨_, s, rfl, .quiet, rfl⟩
    · rename_i hc
      exact ⟨_, _, rfl, guarded_effect (by simp) fun hr =>
        raiseFault_effect (.carRead hr.1 (by simpa [hr.1, hr.2] using hc)), rfl⟩
  | payRead n =>
    simp only [transact, hostPayRead]
    split
    · exact ⟨_, s, rfl, .quiet, rfl⟩
    · rename_i hc
      exact ⟨_, _, rfl, guarded_effect (by simp) fun hr =>
        raiseFault_effect (.payRead hr.1 (by simpa [hr.1, hr.2] using hc)), rfl⟩
  | carWrite a v =>
    refine ⟨_, _, rfl, guarded_effect (by simp) fun hr => ?_, rfl⟩
    unfold carWriteIdle
    split
    · exact .carWrite hr ‹_›
    · exact raiseFault_effect (.carWrite hr.1 (by omega))
  | payWrite n v =>
    refine ⟨_, _, rfl, guarded_effect (by simp) fun hr => ?_, rfl⟩
    unfold payWriteIdle
    split
    · exact .payWrite hr ‹_›
    · exact raiseFault_effect (.payWrite hr.1 (by omega))

end Sys2Proof.Machine
end

