-- ==== Sys2Proof/Laws/ModelFields.lean ====
section
/-! SUPPORT. The BLOCK steps look at none of the model's own fields (inputs, replies, draws) and leave them as they
are. -/

namespace Sys2Proof.Machine

variable (s : State) (is : List Event) (rs : List Reply) (d : Nat)

/-- The state with other values in the model's own fields. -/
def State.withModel (s : State) (is : List Event) (rs : List Reply) (d : Nat) : State :=
  { s with inputs := is, replies := rs, draws := d }

/-- An outcome with its next state changed. -/
def mapNext (f : State → State) (o : Host.Outcome State Fault Refusal) : Host.Outcome State Fault Refusal :=
  match o with
  | .next s => .next (f s)
  | .fault r => .fault r
  | .refused r => .refused r

theorem insertAt_withModel (a : Int) (v : Bit) :
    insertAt (s.withModel is rs d) a v = (insertAt s a v).map (·.withModel is rs d) := by
  cases h : s.inCar a
  · have h' : (s.withModel is rs d).inCar a = false := h
    simp [insertAt, memRead, h, h']
  · have h' : (s.withModel is rs d).inCar a = true := h
    simp only [insertAt, memRead, memWrite, h, h', if_true]
    rfl

theorem encodeHeaderAdvance_withModel :
    encodeHeaderAdvance (s.withModel is rs d) = (encodeHeaderAdvance s).withModel is rs d := by
  unfold encodeHeaderAdvance State.withModel
  simp only
  repeat' split
  all_goals rfl

theorem encodePayloadAdvance_withModel :
    encodePayloadAdvance (s.withModel is rs d) = (encodePayloadAdvance s).withModel is rs d := by
  unfold encodePayloadAdvance State.withModel
  simp only
  repeat' split
  all_goals rfl

theorem decodeHeaderAdvance_withModel :
    decodeHeaderAdvance (s.withModel is rs d) = (decodeHeaderAdvance s).withModel is rs d := by
  unfold decodeHeaderAdvance decodeHeaderEvaluate State.withModel
  simp only
  repeat' split
  all_goals rfl

theorem decodePayloadAdvance_withModel :
    decodePayloadAdvance (s.withModel is rs d) = (decodePayloadAdvance s).withModel is rs d := by
  unfold decodePayloadAdvance State.withModel
  simp only
  repeat' split
  all_goals rfl

theorem decodePayloadStore_withModel (acc : Byte) :
    decodePayloadStore acc (s.withModel is rs d) = mapNext (·.withModel is rs d) (decodePayloadStore acc s) := by
  by_cases hj : s.j.val < 7
  · rw [decodePayloadStore_of_lt acc hj]
    exact decodePayloadStore_of_lt acc hj
  · unfold decodePayloadStore payWrite
    rw [if_neg hj, if_neg (show ¬ (s.withModel is rs d).j.val < 7 from hj)]
    simp only [show (s.withModel is rs d).i = s.i from rfl, show (s.withModel is rs d).cfg = s.cfg from rfl]
    split
    · rename_i h
      split at h <;> [cases h; skip]
      rename_i hn
      rw [if_neg hn]; rfl
    · rename_i h
      split at h <;> cases h
      rename_i hn
      rw [if_pos hn]
      exact congrArg Host.Outcome.next (decodePayloadAdvance_withModel (s.setPay s.i.val (charOut acc)) is rs d)

theorem phaseStep_withModel :
    phaseStep (s.withModel is rs d) = mapNext (·.withModel is rs d) (phaseStep s) := by
  unfold phaseStep
  rw [show (s.withModel is rs d).phase = s.phase from rfl]
  split
  · rfl
  · unfold encodeHeaderStep
    rw [insertAt_withModel]
    show (match (insertAt s (hdrSlot s.carLen.toNat s.k) (hdrBit s.payLen s.k)).map (·.withModel is rs d) with
      | none => _ | some s' => _) = _
    cases insertAt s (hdrSlot s.carLen.toNat s.k) (hdrBit s.payLen s.k) with
    | none => rfl
    | some t => exact congrArg Host.Outcome.next (encodeHeaderAdvance_withModel t is rs d)
  · unfold encodePayloadStep
    show (match payRead s s.i.val with | none => _ | some c => _) = _
    cases payRead s s.i.val with
    | none => rfl
    | some c =>
      simp only []
      rw [insertAt_withModel]
      show (match (insertAt s (paySlot s.carLen.toNat s.i.val s.j) (charBit c s.j)).map (·.withModel is rs d) with
        | none => _ | some s' => _) = _
      cases insertAt s (paySlot s.carLen.toNat s.i.val s.j) (charBit c s.j) with
      | none => rfl
      | some t => exact congrArg Host.Outcome.next (encodePayloadAdvance_withModel t is rs d)
  · unfold decodeHeaderStep
    show (match memRead s (hdrSlot s.carLen.toNat s.k) with | none => _ | some b => _) = _
    cases memRead s (hdrSlot s.carLen.toNat s.k) with
    | none => rfl
    | some b =>
      exact congrArg Host.Outcome.next
        (decodeHeaderAdvance_withModel { s with hacc := hdrAcc s.hacc (extractBit b) s.k } is rs d)
  · unfold decodePayloadStep
    show (match memRead s (paySlot s.carLen.toNat s.i.val s.j) with | none => _ | some b => _) = _
    cases memRead s (paySlot s.carLen.toNat s.i.val s.j) with
    | none => rfl
    | some b => exact decodePayloadStore_withModel s is rs d _

/-- A BLOCK turn commutes with any change of the model's own fields. -/
theorem blockTurn_withModel :
    blockTurn (s.withModel is rs d) = mapNext (·.withModel is rs d) (blockTurn s) := by
  unfold blockTurn
  rw [show (s.withModel is rs d).blockEnabled = s.blockEnabled from rfl]
  split
  · exact phaseStep_withModel s is rs d
  · rfl

/-- A BLOCK turn leaves the model's own fields as they are. -/
theorem blockTurn_keeps_model {s t : State} (h : blockTurn s = .next t) :
    t.inputs = s.inputs ∧ t.replies = s.replies ∧ t.draws = s.draws := by
  have hm := blockTurn_withModel s s.inputs s.replies s.draws
  rw [show s.withModel s.inputs s.replies s.draws = s from rfl, h, mapNext, Host.Outcome.next.injEq] at hm
  rw [hm]
  exact ⟨rfl, rfl, rfl⟩

end Sys2Proof.Machine
end

