-- ==== Sys2Proof/Laws/PerInstr.lean ====
section
/-! SUPPORT. What holds of each command as syntax, one lemma per constructor. -/

namespace Sys2Proof.Laws.RoundTrip

/-- The fields of the command's word are well formed, they are the fields read back from it, and the decoder gives the
command back. -/
def Statement (i : Instr) : Prop :=
  i.fields.wf = true ∧ fieldsOf (Sys2Proof.encode i) = i.fields ∧ Sys2Proof.decode (Sys2Proof.encode i) = .command i

theorem encode : Statement .encode := ⟨by decide, by decide, by decide⟩

theorem decode : Statement .decode := ⟨by decide, by decide, by decide⟩

end Sys2Proof.Laws.RoundTrip
end

