-- ==== Sys2Proof/Tests/Slice0.lean ====
section
/-! SUPPORT. Tests: ill-formed words refused, words written out from the spec's encoding, one-step tests from the spec's
vectors (95_test_vectors), and a witness for the hypotheses of every obligation that has some. -/

namespace Sys2Proof.Machine.Tests

/-! ## WellFormed refuses -/

theorem test_wf_refuses_reserved_bits : CommandFields.wf { op := 1, res := 1 } = false := by decide
theorem test_wf_refuses_op_zero : CommandFields.wf { op := 0, res := 0 } = false := by decide
theorem test_wf_refuses_op_three : CommandFields.wf { op := 3, res := 0 } = false := by decide
theorem test_wf_accepts_commands :
    CommandFields.wf { op := 1, res := 0 } = true ∧ CommandFields.wf { op := 2, res := 0 } = true := by decide
theorem test_config_wf_refuses_depth :
    Config.wf { Config.atReset with carDepth := 4294967296 } = false ∧
      Config.wf { Config.atReset with payDepth := 4294967296 } = false := by decide

/-! ## Decoding: the opcode table's encodings bit by bit, and CW3 to CW8 -/

theorem test_decode_encode_word : decode 0b00000000000000000000000000000001#32 = .command .encode := by decide
theorem test_decode_decode_word : decode 0b00000000000000000000000000000010#32 = .command .decode := by decide
theorem test_decode_cw3 : decode 0x00000000#32 = .illegal (.reservedOp 0) := by decide
theorem test_decode_cw4 : decode 0x00000003#32 = .illegal (.reservedOp 3) := by decide
theorem test_decode_cw5 : decode 0x0000000F#32 = .illegal (.reservedOp 0xF) := by decide
theorem test_decode_cw6 : decode 0x00000011#32 = .illegal (.reservedBitsSet 0x1) := by decide
theorem test_decode_cw7 : decode 0x80000001#32 = .illegal (.reservedBitsSet 0x8000000) := by decide
theorem test_decode_cw8 : decode 0xFFFFFFFF#32 = .illegal (.reservedBitsSet 0xFFFFFFF) := by decide
theorem test_decode_table_word :
    decodeTableWord 32 1 = some .encode ∧ decodeTableWord 32 2 = some .decode ∧ decodeTableWord 32 3 = none ∧
      decodeTableWord 40 1 = none ∧ State.reset.withFetchWord 40 1 = State.reset := by decide

/-! ## Small states -/

/-- An idle block with a carrier of length `L` (all 0x00) and `n` payload entries "A" (0x0041). -/
def idleWith (L n : Word) : State := { State.reset with carLen := L, payLen := n, pay := [(0, 0x0041#16), (1, 0x0041#16)] }

/-- The block in the header phase of an ENCODE at header bit `k`. -/
def inEncHdr (L n : Word) (k : Fin 32) : State := { idleWith L n with phase := .encHdr, k := k }

/-- The block in the payload phase of an ENCODE at bit `j` of character `i`. -/
def inEncPay (L n : Word) (i : Fin 4294967296) (j : Fin 8) : State :=
  { idleWith L n with phase := .encPay, i := i, j := j }

/-- The block in the header phase of a DECODE at header bit `k`, with `h` accumulated. -/
def inDecHdr (L h : Word) (k : Fin 32) : State := { idleWith L 0 with phase := .decHdr, k := k, hacc := h }

/-- The block in the payload phase of a DECODE with header `h`, at bit `j` of character `i`. -/
def inDecPay (L h : Word) (i : Fin 4294967296) (j : Fin 8) : State :=
  { idleWith L 0 with phase := .decPay, i := i, j := j, hacc := h }

/-- The state with a next event. -/
def before (e : Event) (s : State) : State := { s with inputs := [e] }

/-- A faulted block. -/
def faulted : State := { State.reset with fault := true, faultCause := .badReg }

/-! ## One step of each command, and of the block -/

/-- EV1's operands are accepted, and STATUS reads BUSY. -/
theorem test_encode_accepted :
    (nextState? (exec .encode (idleWith 40 1))).map (fun t => (t.status, t.phase)) = some (0x01#32, .encHdr) := by
  decide
/-- EV5 and EV14: rejected in the order of the checks. -/
theorem test_encode_rejected :
    (nextState? (exec .encode (idleWith 31 0))).map State.status = some 0x30#32 ∧
      (nextState? (exec .encode (idleWith 64 5))).map State.status = some 0x60#32 := by decide
/-- DECODE clears both accumulators at its start (42_decode R141). -/
theorem test_decode_accepted :
    (nextState? (exec .decode { idleWith 40 1 with hacc := 7, cacc := 7 })).map
      (fun t => (t.status, t.phase, t.hacc, t.cacc)) = some (0x01#32, .decHdr, 0, 0) := by decide
/-- DV6 and DV13. -/
theorem test_decode_rejected :
    (nextState? (exec .decode (idleWith 31 0))).map State.status = some 0x40#32 ∧
      (nextState? (exec .decode (idleWith 65 0))).map State.status = some 0x60#32 := by decide
/-- EV1's first slot: header bit 0 of 1 at offset 39. -/
theorem test_encode_header_step :
    (nextState? (step (inEncHdr 40 1 0))).map (fun t => (t.car, t.k)) = some ([(39, 1#8)], 1) := by decide
/-- EV1's last slots: bit 6 of 0x41 at offset 1, bit 7 at offset 0, and the completion. -/
theorem test_encode_payload_step :
    (nextState? (step (inEncPay 40 1 0 6))).map (fun t => (t.car, t.j)) = some ([(1, 1#8)], 7) ∧
      (nextState? (step (inEncPay 40 1 0 7))).map (fun t => (t.car, t.status, t.hdr)) =
        some ([], 0x10#32, 1) := by decide
/-- DV5: header bit 31 at offset 8. -/
theorem test_decode_header_step :
    (nextState? (step { inDecHdr 40 0 31 with car := [(8, 1#8)] })).map (fun t => (t.status, t.hdr, t.payLen)) =
      some (0x40#32, 0x80000000#32, 0) := by decide
/-- DV7: the eighth bit completes 0xAA. -/
theorem test_decode_payload_step :
    (nextState? (step { inDecPay 40 1 0 7 with cacc := 0x2A, car := [(0, 0x03#8)] })).map
      (fun t => (t.payAt 0, t.status, t.payLen)) = some (0x00AA#16, 0x10#32, 1) := by decide
/-- H4, H10 and RS2. -/
theorem test_faults_and_reset :
    (nextState? (step (before (.host (.regRead 5)) State.reset))).map State.status = some 0x202#32 ∧
      (nextState? (step (before (.host (.carWrite 5 0x77)) (inEncHdr 40 1 0)))).map (fun t => (t.status, t.carAt 5)) =
        some (0x103#32, 0) ∧
      (nextState? (step (before .reset faulted))).map State.status = some 0#32 := by decide
/-- CW1 and CW2, run as the first command after reset. -/
theorem test_fetch_word_after_reset :
    (nextState? (step (State.reset.withFetchWord 32 1))).map State.status = some 0x30#32 ∧
      (nextState? (step (State.reset.withFetchWord 32 2))).map State.status = some 0x40#32 := by decide
/-- Line 8 of P2: `IF s1[7:4] != 3` is false for 0x30. -/
theorem test_host_condition :
    HostCond.holds { name := 1, hi := 7, lo := 4, equal := false, value := 3 } [(1, 0x30)] = false ∧
      HostCond.holds { name := 1, hi := 0, lo := 0, equal := true, value := 1 } [(1, 0x103)] = true := by decide

/-! ## The invariant of the small states -/

theorem inv_of_parts {s : State} (hc : s.cfg = Config.atReset)
    (hm : Memory.wf [] 64 s.car = true ∧ Memory.wf [] 4 s.pay = true) (hf : s.fault = false ∧ s.faultCause = .none)
    (hp : s.PhaseInv) : s.Inv :=
  ⟨by rw [hc]; decide, by rw [hc]; exact hm.1, by rw [hc]; exact hm.2, by simp [hf.1, hf.2], hp⟩

theorem inv_reset : State.reset.Inv := inv_of_parts rfl ⟨rfl, rfl⟩ ⟨rfl, rfl⟩ trivial
theorem inv_idle (L n : Word) : (idleWith L n).Inv := inv_of_parts rfl ⟨rfl, rfl⟩ ⟨rfl, rfl⟩ trivial
theorem inv_encHdr_32_0 (k : Fin 32) : (inEncHdr 32 0 k).Inv :=
  inv_of_parts rfl ⟨rfl, rfl⟩ ⟨rfl, rfl⟩ ⟨rfl, rfl, rfl⟩
theorem inv_encHdr_40_1 (k : Fin 32) : (inEncHdr 40 1 k).Inv :=
  inv_of_parts rfl ⟨rfl, rfl⟩ ⟨rfl, rfl⟩ ⟨rfl, rfl, rfl⟩
theorem inv_encPay_40_1 (j : Fin 8) : (inEncPay 40 1 0 j).Inv :=
  inv_of_parts rfl ⟨rfl, rfl⟩ ⟨rfl, rfl⟩ ⟨rfl, rfl, (by decide : (0 : Nat) < 1), rfl⟩
theorem inv_encPay_48_2 (j : Fin 8) : (inEncPay 48 2 0 j).Inv :=
  inv_of_parts rfl ⟨rfl, rfl⟩ ⟨rfl, rfl⟩ ⟨rfl, rfl, (by decide : (0 : Nat) < 2), rfl⟩
theorem inv_decHdr (h : Word) (k : Fin 32) : (inDecHdr 40 h k).Inv :=
  inv_of_parts rfl ⟨rfl, rfl⟩ ⟨rfl, rfl⟩ ⟨rfl, rfl, rfl⟩
theorem inv_decPay_40_1 (j : Fin 8) : (inDecPay 40 1 0 j).Inv :=
  inv_of_parts rfl ⟨rfl, rfl⟩ ⟨rfl, rfl⟩ ⟨rfl, rfl, (by decide : (0 : Nat) < 1), rfl⟩
theorem inv_decPay_48_2 (j : Fin 8) : (inDecPay 48 2 0 j).Inv :=
  inv_of_parts rfl ⟨rfl, rfl⟩ ⟨rfl, rfl⟩ ⟨rfl, rfl, (by decide : (0 : Nat) < 2), rfl⟩
theorem inv_faulted : faulted.Inv := ⟨by decide, by decide, by decide, by decide, trivial⟩

/-! ## Witnesses: concrete states and operands that meet the hypotheses of each obligation, and of each of its clauses -/

/-- For DecodeOfEncodeIsTheCommand and StepRunsThePlacedCommand. -/
theorem witness_DecodeOfEncodeIsTheCommand : Instr.wf .encode = true ∧ Instr.wf .decode = true := by decide

/-- The illegal words next to the two commands, and the greatest one. -/
theorem witness_IllegalWordSetsResultOnly :
    ∀ w ∈ [0x00000000#32, 0x00000003#32, 0xFFFFFFFF#32],
      (before (.host (.regWrite 0 w)) State.reset).ready ∧
        (before (.host (.regWrite 0 w)) State.reset).inputs = [.host (.regWrite 0 w)] ∧
        w ≠ 0x00000001#32 ∧ w ≠ 0x00000002#32 := by
  intro w hw
  simp only [List.mem_cons, List.not_mem_nil, or_false] at hw
  rcases hw with rfl | rfl | rfl <;> exact ⟨⟨rfl, rfl⟩, rfl, by decide, by decide⟩

theorem witness_StepRunsTheDecodedCommand :
    ((before (.host (.regWrite 0 1)) State.reset).inputs = [.host (.regWrite 0 1)] ∧ decode 1 = .command .encode) ∧
    ((before (.host (.regWrite 0 2)) State.reset).inputs = [.host (.regWrite 0 2)] ∧ decode 2 = .command .decode) := by
  decide

theorem witness_BlockTurnRunsEnabledPhase :
    ((inEncHdr 40 1 0).nextEvent = .block ∧ (inEncHdr 40 1 0).phase ≠ .idle ∧ (inEncHdr 40 1 0).fault = false) ∧
    (State.reset.nextEvent = .block ∧ State.reset.phase = .idle) ∧
    (faulted.nextEvent = .block ∧ faulted.fault = true) := by
  decide

/-- Each clause at the edge of its range: one past CAR_DEPTH, one past PAY_DEPTH, one byte too few, just enough. -/
theorem witness_EncodeStartDecidesInOrder :
    ((idleWith 65 0).ready ∧ ¬ ((idleWith 65 0).carLen.toNat ≤ (idleWith 65 0).cfg.carDepth ∧
      (idleWith 65 0).payLen.toNat ≤ (idleWith 65 0).cfg.payDepth)) ∧
    ((idleWith 64 5).ready ∧ ¬ ((idleWith 64 5).carLen.toNat ≤ (idleWith 64 5).cfg.carDepth ∧
      (idleWith 64 5).payLen.toNat ≤ (idleWith 64 5).cfg.payDepth)) ∧
    ((idleWith 63 4).ready ∧ ((idleWith 63 4).carLen.toNat ≤ (idleWith 63 4).cfg.carDepth ∧
      (idleWith 63 4).payLen.toNat ≤ (idleWith 63 4).cfg.payDepth) ∧
      (idleWith 63 4).carLen.toNat < 32 + 8 * (idleWith 63 4).payLen.toNat) ∧
    (idleWith 64 4).encodeAccepted ∧ (idleWith 32 0).encodeAccepted := by
  decide

/-- Header bits 30 and 31, the latter with and without characters to follow. -/
theorem witness_EncodeHeaderStepWritesOneSlot :
    ((inEncHdr 40 1 30).Inv ∧ (inEncHdr 40 1 30).phase = .encHdr ∧ (inEncHdr 40 1 30).fault = false ∧
      (inEncHdr 40 1 30).nextEvent = .block ∧ (inEncHdr 40 1 30).k.val < 31) ∧
    ((inEncHdr 32 0 31).Inv ∧ (inEncHdr 32 0 31).phase = .encHdr ∧ (inEncHdr 32 0 31).fault = false ∧
      (inEncHdr 32 0 31).nextEvent = .block ∧ (inEncHdr 32 0 31).k.val = 31 ∧ (inEncHdr 32 0 31).payLen = 0#32) ∧
    ((inEncHdr 40 1 31).Inv ∧ (inEncHdr 40 1 31).phase = .encHdr ∧ (inEncHdr 40 1 31).fault = false ∧
      (inEncHdr 40 1 31).nextEvent = .block ∧ (inEncHdr 40 1 31).k.val = 31 ∧ (inEncHdr 40 1 31).payLen ≠ 0#32) :=
  ⟨⟨inv_encHdr_40_1 _, by decide⟩, ⟨inv_encHdr_32_0 _, by decide⟩, ⟨inv_encHdr_40_1 _, by decide⟩⟩

/-- Bits 6 and 7, the latter in the last character and before it. -/
theorem witness_EncodePayloadStepWritesOneSlot :
    ((inEncPay 40 1 0 6).Inv ∧ (inEncPay 40 1 0 6).phase = .encPay ∧ (inEncPay 40 1 0 6).fault = false ∧
      (inEncPay 40 1 0 6).nextEvent = .block ∧ (inEncPay 40 1 0 6).j.val < 7) ∧
    ((inEncPay 48 2 0 7).Inv ∧ (inEncPay 48 2 0 7).phase = .encPay ∧ (inEncPay 48 2 0 7).fault = false ∧
      (inEncPay 48 2 0 7).nextEvent = .block ∧ (inEncPay 48 2 0 7).j.val = 7 ∧
      (inEncPay 48 2 0 7).i.val + 1 < (inEncPay 48 2 0 7).payLen.toNat) ∧
    ((inEncPay 40 1 0 7).Inv ∧ (inEncPay 40 1 0 7).phase = .encPay ∧ (inEncPay 40 1 0 7).fault = false ∧
      (inEncPay 40 1 0 7).nextEvent = .block ∧ (inEncPay 40 1 0 7).j.val = 7 ∧
      (inEncPay 40 1 0 7).payLen.toNat ≤ (inEncPay 40 1 0 7).i.val + 1) :=
  ⟨⟨inv_encPay_40_1 _, by decide⟩, ⟨inv_encPay_48_2 _, by decide⟩, ⟨inv_encPay_40_1 _, by decide⟩⟩

/-- An empty payload in the shortest carrier, EV7 (with an untouched byte at 0 and one at 41), and a carrier one byte too
short. -/
theorem witness_EncodeEndState :
    ((idleWith 32 0).Inv ∧ (idleWith 32 0).encodeAccepted ∧ (idleWith 32 0).inputs = []) ∧
    ((idleWith 41 1).Inv ∧ (idleWith 41 1).encodeAccepted ∧ (idleWith 41 1).inputs = [] ∧
      0 < (idleWith 41 1).payLen.toNat ∧ 0 < (idleWith 41 1).carLen.toNat - 32 - 8 * (idleWith 41 1).payLen.toNat ∧
      (idleWith 41 1).carLen.toNat ≤ 41) ∧
    ((idleWith 39 1).ready ∧ ¬ (idleWith 39 1).encodeAccepted) :=
  ⟨⟨inv_idle _ _, by decide⟩, ⟨inv_idle _ _, by decide⟩, by decide⟩

/-- The first and the last step count at which BUSY is still 1. -/
theorem witness_EncodeBusyUntilLastStep :
    (idleWith 40 1).Inv ∧ (idleWith 40 1).encodeAccepted ∧ (idleWith 40 1).inputs = [] ∧
      0 < 32 + 8 * (idleWith 40 1).payLen.toNat ∧ 39 < 32 + 8 * (idleWith 40 1).payLen.toNat :=
  ⟨inv_idle _ _, by decide⟩

theorem witness_EncodedHeaderTopBitsAreZero :
    (idleWith 40 1).encodeAccepted ∧ 29 ≤ (29 : Fin 32).val ∧ 29 ≤ (31 : Fin 32).val := by decide

/-- EV3, and EV5, where floor division gives -1. -/
theorem witness_EncodeTooLongIsRejected :
    ((idleWith 40 2).Inv ∧ (idleWith 40 2).ready ∧ (idleWith 40 2).carLen.toNat ≤ (idleWith 40 2).cfg.carDepth ∧
      (idleWith 40 2).payLen.toNat ≤ (idleWith 40 2).cfg.payDepth ∧
      Int.fdiv (((idleWith 40 2).carLen.toNat : Int) - 32) 8 < ((idleWith 40 2).payLen.toNat : Int)) ∧
    ((idleWith 31 0).Inv ∧ (idleWith 31 0).ready ∧ (idleWith 31 0).carLen.toNat ≤ (idleWith 31 0).cfg.carDepth ∧
      (idleWith 31 0).payLen.toNat ≤ (idleWith 31 0).cfg.payDepth ∧
      Int.fdiv (((idleWith 31 0).carLen.toNat : Int) - 32) 8 < ((idleWith 31 0).payLen.toNat : Int)) :=
  ⟨⟨inv_idle _ _, by decide⟩, ⟨inv_idle _ _, by decide⟩⟩

theorem witness_DecodeStartDecidesInOrder :
    ((idleWith 65 0).ready ∧ (idleWith 65 0).cfg.carDepth < (idleWith 65 0).carLen.toNat) ∧
    ((idleWith 31 0).ready ∧ (idleWith 31 0).carLen.toNat ≤ (idleWith 31 0).cfg.carDepth ∧
      (idleWith 31 0).carLen.toNat < 32) ∧
    (idleWith 32 0).decodeAccepted ∧ (idleWith 64 0).decodeAccepted := by
  decide

/-- Header bits 30 and 31, the latter with the header 0, with one that does not fit (2 in 40 bytes, DV3) and with one
that does (1). The carrier is all zero, so the accumulator stays as it is. -/
theorem witness_DecodeHeaderStepReadsOneSlot :
    ∀ x ∈ [(inDecHdr 40 0 30, 0#32), (inDecHdr 40 0 31, 0#32), (inDecHdr 40 2 31, 2#32), (inDecHdr 40 1 31, 1#32)],
      x.1.Inv ∧ x.1.phase = .decHdr ∧ x.1.fault = false ∧ x.1.nextEvent = .block ∧
      x.2 = x.1.hacc ||| (((x.1.carAt (x.1.carLen.toNat - 1 - x.1.k.val) &&& 1#8).setWidth 32) <<< x.1.k.val) ∧
      (x.1.k.val < 31 ∨ (x.1.k.val = 31 ∧ (x.2 = 0#32 ∨ x.1.carLen.toNat < 32 + 8 * x.2.toNat ∨
        (32 + 8 * x.2.toNat ≤ x.1.carLen.toNat ∧ x.2.toNat ≤ x.1.cfg.payDepth)))) := by
  intro x hx
  simp only [List.mem_cons, List.not_mem_nil, or_false] at hx
  rcases hx with rfl | rfl | rfl | rfl <;> exact ⟨inv_decHdr _ _, by decide⟩

theorem witness_DecodePayloadStepReadsOneSlot :
    ((inDecPay 40 1 0 6).Inv ∧ (inDecPay 40 1 0 6).phase = .decPay ∧ (inDecPay 40 1 0 6).fault = false ∧
      (inDecPay 40 1 0 6).nextEvent = .block ∧ (inDecPay 40 1 0 6).j.val < 7) ∧
    ((inDecPay 48 2 0 7).Inv ∧ (inDecPay 48 2 0 7).phase = .decPay ∧ (inDecPay 48 2 0 7).fault = false ∧
      (inDecPay 48 2 0 7).nextEvent = .block ∧ (inDecPay 48 2 0 7).j.val = 7 ∧
      (inDecPay 48 2 0 7).i.val + 1 < (inDecPay 48 2 0 7).hacc.toNat) ∧
    ((inDecPay 40 1 0 7).Inv ∧ (inDecPay 40 1 0 7).phase = .decPay ∧ (inDecPay 40 1 0 7).fault = false ∧
      (inDecPay 40 1 0 7).nextEvent = .block ∧ (inDecPay 40 1 0 7).j.val = 7 ∧
      (inDecPay 40 1 0 7).hacc.toNat ≤ (inDecPay 40 1 0 7).i.val + 1) :=
  ⟨⟨inv_decPay_40_1 _, by decide⟩, ⟨inv_decPay_48_2 _, by decide⟩, ⟨inv_decPay_40_1 _, by decide⟩⟩

/-- A carrier of length 40 whose last byte is `b`: its header value is bit 0 of `b`. -/
def carrierEnding (b : Byte) : State := { idleWith 40 0 with car := Memory.entry [] 39 b }

/-- A carrier of length 40 with CAR[38] = 0x01: its header value is 2, DV3. -/
def carrierOfTwo : State := { idleWith 40 0 with car := [(38, 1#8)] }

/-- The header values 0 (DV2), 2 in 40 bytes (DV3) and 1 (DV1's header), and a carrier too short for a header. -/
theorem witness_DecodeEndState :
    ((carrierEnding 0).Inv ∧ (carrierEnding 0).decodeAccepted ∧ (carrierEnding 0).inputs = [] ∧
      (∀ k : Fin 32, (0#32).getLsbD k.val =
        ((carrierEnding 0).carAt ((carrierEnding 0).carLen.toNat - 1 - k.val)).getLsbD 0)) ∧
    (carrierOfTwo.Inv ∧ carrierOfTwo.decodeAccepted ∧ carrierOfTwo.inputs = [] ∧
      (∀ k : Fin 32, (2#32).getLsbD k.val = (carrierOfTwo.carAt (carrierOfTwo.carLen.toNat - 1 - k.val)).getLsbD 0) ∧
      2#32 ≠ 0#32 ∧ carrierOfTwo.carLen.toNat < 32 + 8 * (2#32).toNat) ∧
    ((carrierEnding 1).Inv ∧ (carrierEnding 1).decodeAccepted ∧ (carrierEnding 1).inputs = [] ∧
      (∀ k : Fin 32, (1#32).getLsbD k.val =
        ((carrierEnding 1).carAt ((carrierEnding 1).carLen.toNat - 1 - k.val)).getLsbD 0) ∧
      1#32 ≠ 0#32 ∧ 32 + 8 * (1#32).toNat ≤ (carrierEnding 1).carLen.toNat ∧
      (1#32).toNat ≤ (carrierEnding 1).cfg.payDepth) ∧
    ((idleWith 31 0).ready ∧ ¬ (idleWith 31 0).decodeAccepted) :=
  ⟨⟨inv_of_parts rfl ⟨rfl, rfl⟩ ⟨rfl, rfl⟩ trivial, by decide⟩,
    ⟨inv_of_parts rfl ⟨rfl, rfl⟩ ⟨rfl, rfl⟩ trivial, by decide⟩,
    ⟨inv_of_parts rfl ⟨rfl, rfl⟩ ⟨rfl, rfl⟩ trivial, by decide⟩, by decide⟩

/-- The last header step of a rejected header, and the last step but one of DV1. -/
theorem witness_DecodeBusyUntilLastStep :
    (carrierOfTwo.Inv ∧ carrierOfTwo.decodeAccepted ∧ carrierOfTwo.inputs = [] ∧
      (∀ k : Fin 32, (2#32).getLsbD k.val = (carrierOfTwo.carAt (carrierOfTwo.carLen.toNat - 1 - k.val)).getLsbD 0) ∧
      31 < 32) ∧
    ((carrierEnding 1).Inv ∧ (carrierEnding 1).decodeAccepted ∧ (carrierEnding 1).inputs = [] ∧
      (∀ k : Fin 32, (1#32).getLsbD k.val =
        ((carrierEnding 1).carAt ((carrierEnding 1).carLen.toNat - 1 - k.val)).getLsbD 0) ∧
      39 < 32 + 8 * (1#32).toNat ∧ 32 + 8 * (1#32).toNat ≤ (carrierEnding 1).carLen.toNat ∧
      (1#32).toNat ≤ (carrierEnding 1).cfg.payDepth) :=
  ⟨⟨inv_of_parts rfl ⟨rfl, rfl⟩ ⟨rfl, rfl⟩ trivial, by decide⟩,
    ⟨inv_of_parts rfl ⟨rfl, rfl⟩ ⟨rfl, rfl⟩ trivial, by decide⟩⟩

theorem witness_HeaderWithTopBitIsOutOfBounds : (inDecHdr 40 0x80000000 31).hacc.getLsbD 31 = true := by decide

/-- With an empty payload and with one character. -/
theorem witness_DecodeAfterEncodeGivesBackThePayload :
    ((idleWith 40 0).Inv ∧ (idleWith 40 0).encodeAccepted ∧ (idleWith 40 0).inputs = [] ∧
      (idleWith 40 0).payLen = 0#32) ∧
    ((idleWith 40 1).Inv ∧ (idleWith 40 1).encodeAccepted ∧ (idleWith 40 1).inputs = [] ∧
      (idleWith 40 1).payLen ≠ 0#32 ∧ 0 < (idleWith 40 1).payLen.toNat) :=
  ⟨⟨inv_idle _ _, by decide⟩, ⟨inv_idle _ _, by decide⟩⟩

/-- Every mapped register, and the first unmapped index. -/
theorem witness_RegReadReturnsTheRegister :
    ∀ idx ∈ [0, 1, 2, 3, 4, 5], (before (.host (.regRead idx)) State.reset).inputs = [.host (.regRead idx)] ∧
      (idx < 5 ∨ 5 ≤ idx) := by
  decide

theorem witness_ConfigWriteSetsTheRegister :
    ∀ idx ∈ [2, 3], (before (.host (.regWrite idx 0xFFFFFFFF)) State.reset).ready ∧
      (before (.host (.regWrite idx 0xFFFFFFFF)) State.reset).inputs = [.host (.regWrite idx 0xFFFFFFFF)] := by
  decide

theorem witness_BadRegisterAccessFaults :
    ((before (.host (.regRead 5)) State.reset).fault = false ∧
      (before (.host (.regRead 5)) State.reset).inputs = [.host (.regRead 5)] ∧ 5 ≤ 5) ∧
    (∀ idx ∈ [1, 4, 5], (before (.host (.regWrite idx 0)) State.reset).fault = false ∧
      (before (.host (.regWrite idx 0)) State.reset).inputs = [.host (.regWrite idx 0)] ∧
      (before (.host (.regWrite idx 0)) State.reset).phase = .idle ∧ (idx = 1 ∨ idx = 4 ∨ 5 ≤ idx)) ∧
    ((before (.host (.regWrite 1 0)) (inEncHdr 40 1 0)).fault = false ∧
      (before (.host (.regWrite 1 0)) (inEncHdr 40 1 0)).inputs = [.host (.regWrite 1 0)] ∧
      (before (.host (.regWrite 1 0)) (inEncHdr 40 1 0)).phase ≠ .idle) := by
  decide

/-- For CarReadReturnsTheByte and CarWriteSetsTheByte, the four cases of a carrier access: faulted, busy, just past CAR_DEPTH, the last offset. -/
theorem witness_CarAccess :
    ∀ x ∈ [fun a => Transaction.carRead a, fun a => Transaction.carWrite a 0xFF],
      ((before (.host (x 0)) faulted).inputs = [.host (x 0)] ∧ (before (.host (x 0)) faulted).fault = true) ∧
      ((before (.host (x 0)) (inEncHdr 40 1 0)).inputs = [.host (x 0)] ∧
        (before (.host (x 0)) (inEncHdr 40 1 0)).fault = false ∧
        (before (.host (x 0)) (inEncHdr 40 1 0)).phase ≠ .idle) ∧
      ((before (.host (x 64)) State.reset).inputs = [.host (x 64)] ∧ (before (.host (x 64)) State.reset).ready ∧
        (before (.host (x 64)) State.reset).cfg.carDepth ≤ 64) ∧
      ((before (.host (x 63)) State.reset).inputs = [.host (x 63)] ∧ (before (.host (x 63)) State.reset).ready ∧
        63 < (before (.host (x 63)) State.reset).cfg.carDepth) := by
  decide

/-- For PayReadReturnsTheEntry and PayWriteSetsTheEntry, the four cases of a payload access: faulted, busy, just past PAY_DEPTH, the last index. -/
theorem witness_PayAccess :
    ∀ x ∈ [fun n => Transaction.payRead n, fun n => Transaction.payWrite n 0xFFFF],
      ((before (.host (x 0)) faulted).inputs = [.host (x 0)] ∧ (before (.host (x 0)) faulted).fault = true) ∧
      ((before (.host (x 0)) (inDecHdr 40 0 0)).inputs = [.host (x 0)] ∧
        (before (.host (x 0)) (inDecHdr 40 0 0)).fault = false ∧
        (before (.host (x 0)) (inDecHdr 40 0 0)).phase ≠ .idle) ∧
      ((before (.host (x 4)) State.reset).inputs = [.host (x 4)] ∧ (before (.host (x 4)) State.reset).ready ∧
        (before (.host (x 4)) State.reset).cfg.payDepth ≤ 4) ∧
      ((before (.host (x 3)) State.reset).inputs = [.host (x 3)] ∧ (before (.host (x 3)) State.reset).ready ∧
        3 < (before (.host (x 3)) State.reset).cfg.payDepth) := by
  decide

/-- The invariant of the states of the two theorems above: the premise of CarWriteSetsTheByte and
PayWriteSetsTheEntry. -/
theorem witness_AccessInv (e : Event) :
    (before e faulted).Inv ∧ (before e (inEncHdr 40 1 0)).Inv ∧ (before e (inDecHdr 40 0 0)).Inv ∧
      (before e State.reset).Inv :=
  ⟨inv_faulted.of_model_fields _ _ _, (inv_encHdr_40_1 0).of_model_fields _ _ _,
    (inv_decHdr 0 0).of_model_fields _ _ _, inv_reset.of_model_fields _ _ _⟩

/-- Each of the five kinds of transaction, made while the header phase runs. -/
theorem witness_TransactionWhileBusyRaisesHazard :
    ∀ x ∈ [Transaction.regWrite 0 1, .carRead 0, .carWrite 5 0x77, .payRead 0, .payWrite 0 0],
      (before (.host x) (inEncHdr 40 1 0)).phase ≠ .idle ∧ (before (.host x) (inEncHdr 40 1 0)).fault = false ∧
      (before (.host x) (inEncHdr 40 1 0)).inputs = [.host x] ∧ ∀ idx, x ≠ .regRead idx := by
  intro x hx
  simp only [List.mem_cons, List.not_mem_nil, or_false] at hx
  rcases hx with rfl | rfl | rfl | rfl | rfl <;> exact ⟨by decide, rfl, rfl, by simp⟩

theorem witness_FaultedBlockIsHalted :
    (faulted.fault = true ∧ faulted.nextEvent ≠ .reset) ∧
    ((before (.host (.regWrite 0 1)) faulted).fault = true ∧
      (before (.host (.regWrite 0 1)) faulted).nextEvent ≠ .reset) := by
  decide

theorem witness_OnlyResetClearsFault :
    faulted.fault = true ∧ (∀ e ∈ faulted.inputs, e ≠ .reset) ∧ run 1 faulted = .next faulted :=
  ⟨rfl, by decide, rfl⟩

theorem witness_BlockStepsNeverFault : (inEncHdr 40 1 0).Inv ∧ (inEncHdr 40 1 0).nextEvent = .block :=
  ⟨inv_encHdr_40_1 0, rfl⟩

/-- One step into FAULT for each cause. -/
theorem witness_FaultOnlyByHostMisuse :
    ∀ s ∈ [before (.host (.carWrite 5 0x77)) (inEncHdr 40 1 0), before (.host (.regWrite 4 7)) State.reset,
      before (.host (.payWrite 4 1)) State.reset],
      s.fault = false ∧ (nextState? (step s)).map State.fault = some true := by
  decide

theorem witness_PowerOnLeavesResetValues :
    Memory.find [(3, 7#8)] 3 = some 7#8 ∧ Memory.find [(3, 7#16)] 3 = some 7#16 := by decide

theorem witness_ResetRestoresAllButMemory : (before .reset (inEncHdr 40 1 0)).inputs = [.reset] := rfl

/-- A reset before the first BLOCK step and one before the last. -/
theorem witness_ResetDuringEncodeKeepsTheSlotsWritten :
    (idleWith 40 1).Inv ∧ (idleWith 40 1).encodeAccepted ∧ (idleWith 40 1).inputs = [] ∧
      0 < 32 + 8 * (idleWith 40 1).payLen.toNat ∧ 39 < 32 + 8 * (idleWith 40 1).payLen.toNat :=
  ⟨inv_idle _ _, by decide⟩

/-- The greatest depths of 00_scope R9, and depths of 0. -/
theorem witness_PowerOnMeetsTheInvariant :
    Config.wf { carDepth := 4294967295, payDepth := 4294967295, ramInitCar := [(0, 1)], ramInitPay := [(0, 1)] } = true ∧
      Config.wf { carDepth := 0, payDepth := 0, ramInitCar := [], ramInitPay := [] } = true := by
  decide

/-- A step of an ENCODE, and of an idle block. -/
theorem witness_StepKeepsTheInvariant :
    ((inEncHdr 40 1 30).Inv ∧ ∃ t, step (inEncHdr 40 1 30) = .next t) ∧
    (State.reset.Inv ∧ step State.reset = .next State.reset) :=
  ⟨⟨inv_encHdr_40_1 30, _, rfl⟩, inv_reset, rfl⟩

theorem witness_StepAlwaysAnswersNext : (inDecPay 40 1 0 7).Inv := inv_decPay_40_1 7

theorem witness_StepKeepsTheParameters : ∃ t, step (inDecPay 40 1 0 7) = .next t := ⟨_, rfl⟩

/-- A CarWrite that changes CAR[63], a header step that changes CAR[39], a payload step that changes CAR[1]. -/
theorem witness_CarrierChangesOnlyBySlotOrCarWrite :
    ((before (.host (.carWrite 63 9)) State.reset).Inv ∧ (inEncHdr 40 1 0).Inv ∧ (inEncPay 40 1 0 6).Inv) ∧
    ∀ x ∈ [(before (.host (.carWrite 63 9)) State.reset, 63), (inEncHdr 40 1 0, 39), (inEncPay 40 1 0 6, 1)],
      (nextState? (step x.1)).map (fun t => decide (t.carAt x.2 ≠ x.1.carAt x.2)) = some true :=
  ⟨⟨inv_reset.of_model_fields _ _ _, inv_encHdr_40_1 0, inv_encPay_40_1 6⟩, by decide⟩

/-- A PayWrite that changes PAY[3], and a DECODE step that changes PAY[0]. -/
theorem witness_PayloadChangesOnlyByDecodeOrPayWrite :
    ((before (.host (.payWrite 3 9)) State.reset).Inv ∧ (inDecPay 40 1 0 7).Inv) ∧
    ∀ x ∈ [(before (.host (.payWrite 3 9)) State.reset, 3), (inDecPay 40 1 0 7, 0)],
      (nextState? (step x.1)).map (fun t => decide (t.payAt x.2 ≠ x.1.payAt x.2)) = some true :=
  ⟨⟨inv_reset.of_model_fields _ _ _, inv_decPay_40_1 7⟩, by decide⟩

/-- A write of each length register, and the steps by which ENCODE writes HDR and DECODE writes HDR and PAY_LEN. -/
theorem witness_LengthRegistersChangeOnlyByTheirRules :
    (nextState? (step (before (.host (.regWrite 2 40)) State.reset))).map State.carLen = some 40#32 ∧
    (nextState? (step (before (.host (.regWrite 3 1)) State.reset))).map State.payLen = some 1#32 ∧
    (nextState? (step (before .reset (idleWith 40 1)))).map (fun t => (t.carLen, t.payLen)) = some (0#32, 0#32) ∧
    (nextState? (step (inEncPay 40 1 0 7))).map State.hdr = some 1#32 ∧
    (nextState? (step (inDecPay 40 1 0 7))).map (fun t => (t.hdr, t.payLen)) = some (1#32, 1#32) := by
  decide

/-- With no input left, with a BLOCK turn left and with a reset left. -/
theorem witness_FinalStateStays :
    State.reset.final = true ∧
      ((before .block (idleWith 40 1)).final = true ∧ Event.reset ∉ (before .block (idleWith 40 1)).inputs.take 1) ∧
      (before .reset (idleWith 40 1)).final = true := by
  decide

/-- R171 (a) to (c): a further transaction, a running command and a fault each keep a run from having ended. -/
theorem test_final :
    (before (.host (.regRead 1)) State.reset).final = false ∧ (inEncHdr 40 1 0).final = false ∧
      faulted.final = false := by decide

/-- A host that has read STATUS = 0x10 (OK) in a WAIT under name 0, and stands at its branch. -/
def waitEnded : HostSystem := { agent := { place := 2, held := [(0, 0x10)] }, block := State.reset }

/-- At the branch of a WAIT that is not taken, at a label that a branch leads back to for ever, and past the end. -/
theorem witness_HostProgramRunStaysEnded :
    waitEnded.final (assemble [.wait 0]) = true ∧
      HostSystem.final [.label 0, .ifGoto { name := 0, hi := 0, lo := 0, equal := true, value := 0 } 0]
        { waitEnded with agent := { place := 0, held := [(0, 0x10)] } } = true ∧
      HostSystem.final [] waitEnded = true := by decide

/-- R171 (b) for a program: a transaction after a label and a branch keeps the run from having ended, though the block is
idle without a fault; past it the run has ended. -/
theorem test_host_program_end :
    HostSystem.final (assemble [.wait 0]) { waitEnded with agent := { place := 0, held := [] } } = false ∧
      HostSystem.final (assemble [.wait 0, .encode]) waitEnded = false ∧ waitEnded.block.final = true := by decide

/-- A host turn performs the transaction and keeps its value; a branch not taken goes on to the next statement. -/
theorem test_host_turn :
    (match HostSystem.hostTurn (assemble [.wait 0]) { agent := { place := 1, held := [] }, block := faulted } with
      | .next y => some y.agent
      | _ => none) = some { place := 2, held := [(0, 0x202)] } ∧
    HostAgent.pass (assemble [.wait 0]) { place := 2, held := [(0, 0x203)] } = { place := 0, held := [(0, 0x203)] } := by
  decide

/-- RAM_INIT_CAR reaches the observation: two power-on states that differ in it alone are observed apart. -/
theorem test_observation_shows_ram_init :
    (State.powerOn { carDepth := 2, payDepth := 1, ramInitCar := [(1, 7)], ramInitPay := [] }).observation.car = [0, 7] ∧
      (State.powerOn { carDepth := 2, payDepth := 1, ramInitCar := [], ramInitPay := [] }).observation.car = [0, 0] := by
  decide

theorem witness_RegReadScheduleDoesNotMatter :
    (inEncHdr 40 1 0).Inv ∧ ∀ e ∈ [Event.host (.regRead 1), .block, .host (.regRead 4)],
      e = .block ∨ ∃ idx, idx < 5 ∧ e = .host (.regRead idx) :=
  ⟨inv_encHdr_40_1 0, by
    intro e he
    simp only [List.mem_cons, List.not_mem_nil, or_false] at he
    rcases he with rfl | rfl | rfl
    · exact .inr ⟨1, by omega, rfl⟩
    · exact .inl rfl
    · exact .inr ⟨4, by omega, rfl⟩⟩

/-- What an earlier command may leave: HDR, RESULT, the sequencer and the accumulators. -/
def afterEarlier (s : State) : State :=
  { s with hdr := 9, result := .outOfBounds, k := 31, i := 3, j := 7, hacc := 9, cacc := 5 }

theorem witness_CommandIgnoresEarlierCommands :
    (idleWith 40 1).Inv ∧ (afterEarlier (idleWith 40 1)).Inv ∧ (idleWith 40 1).ready ∧
      (afterEarlier (idleWith 40 1)).ready ∧ (idleWith 40 1).inputs = [] ∧
      (afterEarlier (idleWith 40 1)).inputs = [] ∧ (afterEarlier (idleWith 40 1)).cfg = (idleWith 40 1).cfg ∧
      (afterEarlier (idleWith 40 1)).carLen = (idleWith 40 1).carLen ∧
      (afterEarlier (idleWith 40 1)).payLen = (idleWith 40 1).payLen ∧
      (afterEarlier (idleWith 40 1)).car = (idleWith 40 1).car ∧
      (afterEarlier (idleWith 40 1)).pay = (idleWith 40 1).pay :=
  ⟨inv_idle _ _, inv_of_parts rfl ⟨rfl, rfl⟩ ⟨rfl, rfl⟩ trivial, by decide⟩

theorem witness_MemoryReadsTheLatestWrite :
    Memory.wf [(2, 5#8)] 4 [(0, 1#8), (2, 0#8)] = true ∧ 3 < 4 ∧ (0 : Nat) ≠ 3 ∧
      Memory.wf [(2, 5#8)] 4 (Memory.write [(2, 5#8)] [(0, 1#8), (2, 0#8)] 3 7#8) = true := by
  decide

/-- The shortest carrier of one character, with its first and last slots. -/
theorem witness_SlotsAreDistinctAndCoverTheFootprint :
    32 + 8 * 1 ≤ 40 ∧ 0 < 1 ∧ hdrSlot 40 0 = 39 ∧ hdrSlot 40 31 = 8 ∧ paySlot 40 0 0 = 7 ∧ paySlot 40 0 7 = 0 := by
  decide

theorem witness_BitSelectorsAndAccumulatorsAgree :
    (0x7FFFFFFF#32).toNat < 2 ^ (31 : Fin 32).val ∧ (0x7F#8).toNat < 2 ^ (7 : Fin 8).val := by decide

end Sys2Proof.Machine.Tests
end

section
/-! Proofs of the statements of 00_scope: the BLOCK turn (R14) and the invariant at power-on (R9, 10_state R35). -/

namespace Sys2Proof.Machine

/-- Settles O7: a step on a BLOCK event is `blockTurn` after the event is taken, and taking it leaves PHASE and FAULT,
so R14's enabling condition may be read off the state before the step. -/
theorem blockTurnRunsEnabledPhase : Obligations.BlockTurnRunsEnabledPhase := by
  intro s hblock
  rw [step_block hblock]
  constructor
  · intro hphase hfault
    exact blockTurn_of_enabled hphase hfault
  · intro hdisabled
    exact blockTurn_of_not_enabled hdisabled

/-- The parameters of State.reset are within the bounds of 00_scope R9. -/
theorem atReset_wf : Config.atReset.wf = true := by decide

/-- Settles O39: nothing is listed, running or faulted at power-on, and State.reset is the power-on state of parameters
within R9's bounds. -/
theorem powerOnMeetsTheInvariant : Obligations.PowerOnMeetsTheInvariant :=
  ⟨fun _ hwf => .powerOn hwf, .powerOn atReset_wf⟩

end Sys2Proof.Machine
end

section
/-! What one step of the machine can do, and what a BLOCK step does as a function on the states that meet the invariant. -/

namespace Sys2Proof.Machine

variable {s t : State}

/-! ### Everything a step can do -/

/-- Everything a BLOCK turn can do: nothing, or the enabled BLOCK step. -/
theorem blockTurn_cases (h : blockTurn s = .next t) :
    ((s.phase = .idle ∨ s.fault = true) ∧ t = s) ∨ (s.phase ≠ .idle ∧ s.fault = false ∧ phaseStep s = .next t) := by
  by_cases hoff : s.phase = .idle ∨ s.fault = true
  · rw [blockTurn_of_not_enabled hoff] at h
    cases h
    exact .inl ⟨hoff, rfl⟩
  · obtain ⟨hp, hf⟩ := not_or.1 hoff
    rw [Bool.not_eq_true] at hf
    exact .inr ⟨hp, hf, blockTurn_of_enabled hp hf ▸ h⟩

/-- Everything a step can do, by its next event: a host transaction's effect, a BLOCK turn, or the reset. -/
theorem step_cases (h : step s = .next t) :
    (∃ x u, s.nextEvent = .host x ∧ HostEffect s.takeEvent x u ∧ t = { u with replies := t.replies, draws := t.draws }) ∨
    (s.nextEvent = .block ∧
      (((s.phase = .idle ∨ s.fault = true) ∧ t = s.takeEvent) ∨
       (s.phase ≠ .idle ∧ s.fault = false ∧ phaseStep s.takeEvent = .next t))) ∨
    (s.nextEvent = .reset ∧ t = assertReset s.takeEvent) := by
  rw [step] at h
  cases he : s.nextEvent with
  | host x =>
    obtain ⟨t', u, ht, hu, hfr⟩ := transact_effect x s.takeEvent
    rw [he, perform, ht, Host.Outcome.next.injEq] at h
    subst h
    exact .inl ⟨x, u, rfl, hu, hfr⟩
  | block =>
    rw [he, perform] at h
    exact .inr (.inl ⟨rfl, blockTurn_cases h⟩)
  | reset =>
    rw [he, perform] at h
    cases h
    exact .inr (.inr ⟨rfl, rfl⟩)

/-! ### A BLOCK step as a function -/

/-- The carrier after an ENCODE slot step writes the data bit `v` at offset `a`. -/
def State.withSlot (s : State) (a : Nat) (v : Bit) : State := s.setCar a (insertBit (s.carAt a) v)

/-- The state with another value in HACC. -/
def State.withHacc (s : State) (v : Word) : State := { s with hacc := v }

/-- Where a DECODE payload step leaves the block once the character's bits so far are `acc` (42_decode R144). -/
def State.withCharBits (s : State) (acc : Byte) : State :=
  if s.j.val < 7 then { s with cacc := acc, j := s.j + 1 }
  else decodePayloadAdvance (s.setPay s.i.val (charOut acc))

/-- The state after the BLOCK step of the running phase, with every slot and index taken to be inside its memory. -/
def State.afterBlockStep (s : State) : State :=
  match s.phase with
  | .idle => s
  | .encHdr => encodeHeaderAdvance (s.withSlot (s.carLen.toNat - 1 - s.k.val) (hdrBit s.payLen s.k))
  | .encPay =>
    encodePayloadAdvance
      (s.withSlot (s.carLen.toNat - 33 - 8 * s.i.val - s.j.val) (charBit (s.payAt s.i.val) s.j))
  | .decHdr =>
    decodeHeaderAdvance
      (s.withHacc (hdrAcc s.hacc (extractBit (s.carAt (s.carLen.toNat - 1 - s.k.val))) s.k))
  | .decPay =>
    s.withCharBits (charAcc s.cacc (extractBit (s.carAt (s.carLen.toNat - 33 - 8 * s.i.val - s.j.val))) s.j)

theorem afterBlockStep_idle (hp : s.phase = .idle) : s.afterBlockStep = s := by rw [State.afterBlockStep, hp]

theorem afterBlockStep_encHdr (hp : s.phase = .encHdr) :
    s.afterBlockStep =
      encodeHeaderAdvance (s.withSlot (s.carLen.toNat - 1 - s.k.val) (hdrBit s.payLen s.k)) := by
  rw [State.afterBlockStep, hp]

theorem afterBlockStep_encPay (hp : s.phase = .encPay) :
    s.afterBlockStep = encodePayloadAdvance
      (s.withSlot (s.carLen.toNat - 33 - 8 * s.i.val - s.j.val) (charBit (s.payAt s.i.val) s.j)) := by
  rw [State.afterBlockStep, hp]

theorem afterBlockStep_decHdr (hp : s.phase = .decHdr) :
    s.afterBlockStep = decodeHeaderAdvance
      (s.withHacc (hdrAcc s.hacc (extractBit (s.carAt (s.carLen.toNat - 1 - s.k.val))) s.k)) := by
  rw [State.afterBlockStep, hp]

theorem afterBlockStep_decPay (hp : s.phase = .decPay) :
    s.afterBlockStep = s.withCharBits
      (charAcc s.cacc (extractBit (s.carAt (s.carLen.toNat - 33 - 8 * s.i.val - s.j.val))) s.j) := by
  rw [State.afterBlockStep, hp]

theorem decodePayloadStore_eq (acc : Byte) (hi : s.i.val < s.cfg.payDepth) :
    decodePayloadStore acc s = .next (s.withCharBits acc) := by
  rw [State.withCharBits]
  split
  · exact decodePayloadStore_of_lt acc ‹_›
  · exact decodePayloadStore_of_last acc (by omega) hi

/-- From a state that meets the invariant the BLOCK step of the running phase makes no access outside a memory
(20_memory R52), so it answers its next state. -/
theorem State.Inv.phaseStep_eq (hI : s.Inv) : phaseStep s = .next s.afterBlockStep := by
  cases hp : s.phase with
  | idle => rw [phaseStep, hp, afterBlockStep_idle hp]
  | encHdr =>
    obtain ⟨hd, -, hL, -⟩ := hI.encHdr hp
    rw [phaseStep, hp, afterBlockStep_encHdr hp]
    exact encodeHeaderStep_eq (by omega) hd
  | encPay =>
    obtain ⟨hd, hn, hL, hi, -⟩ := hI.encPay hp
    rw [phaseStep, hp, afterBlockStep_encPay hp]
    exact encodePayloadStep_eq hL hd hn hi
  | decHdr =>
    obtain ⟨hd, hL, -⟩ := hI.decHdr hp
    rw [phaseStep, hp, afterBlockStep_decHdr hp]
    exact decodeHeaderStep_eq hL hd
  | decPay =>
    obtain ⟨hd, hn, hL, hi, -⟩ := hI.decPay hp
    rw [phaseStep, hp, afterBlockStep_decPay hp]
    exact (decodePayloadStep_eq hL hd hi).trans (decodePayloadStore_eq _ (by omega))

/-! ### A BLOCK step keeps the invariant -/

theorem State.Inv.withSlot (hI : s.Inv) {a : Nat} (ha : a < s.cfg.carDepth) (v : Bit) : (s.withSlot a v).Inv :=
  hI.setCar ha _

theorem State.Inv.of_idle_frame (hI : s.Inv) (hc : t.cfg = s.cfg) (hcar : t.car = s.car) (hpay : t.pay = s.pay)
    (hf : t.fault = s.fault) (hfc : t.faultCause = s.faultCause) (hp : t.phase = .idle) : t.Inv :=
  hI.of_frame hc hcar hpay hf hfc (phaseInv_of_idle hp)

theorem val_add_one_of_lt {i : Fin 4294967296} {n : Word} (h : i.val + 1 < n.toNat) : (i + 1).val = i.val + 1 := by
  have := n.isLt
  simp only [Fin.val_add]
  omega

theorem encodeHeaderAdvance_inv (hI : s.Inv) (hp : s.phase = .encHdr) : (encodeHeaderAdvance s).Inv := by
  obtain ⟨hd, hn, hL, hr⟩ := hI.encHdr hp
  unfold encodeHeaderAdvance
  split
  · exact hI.of_frame rfl rfl rfl rfl rfl (by simp [State.PhaseInv, hp, hd, hn, hL, hr])
  · split
    · exact hI.of_idle_frame rfl rfl rfl rfl rfl rfl
    · exact hI.of_frame rfl rfl rfl rfl rfl (by simp [State.PhaseInv, hd, hn, hL, hr]; omega)

theorem encodePayloadAdvance_inv (hI : s.Inv) (hp : s.phase = .encPay) : (encodePayloadAdvance s).Inv := by
  obtain ⟨hd, hn, hL, hi, hr⟩ := hI.encPay hp
  unfold encodePayloadAdvance
  split
  · exact hI.of_frame rfl rfl rfl rfl rfl (by simp [State.PhaseInv, hp, hd, hn, hL, hi, hr])
  · split
    · rename_i hlt
      exact hI.of_frame rfl rfl rfl rfl rfl
        (by simp [State.PhaseInv, hp, hd, hn, hL, hr, val_add_one_of_lt hlt, hlt])
    · exact hI.of_idle_frame rfl rfl rfl rfl rfl rfl

theorem decodeHeaderEvaluate_inv (hI : s.Inv) (hp : s.phase = .decHdr) : (decodeHeaderEvaluate s).Inv := by
  obtain ⟨hd, hL, hr⟩ := hI.decHdr hp
  unfold decodeHeaderEvaluate
  split
  · exact hI.of_idle_frame rfl rfl rfl rfl rfl rfl
  · split
    · exact hI.of_idle_frame rfl rfl rfl rfl rfl rfl
    · rename_i h0 hfit
      simp only [Bool.or_eq_true, Bool.not_eq_true', fits_eq_false_iff, decide_eq_true_eq, not_or, not_lt] at hfit
      exact hI.of_frame rfl rfl rfl rfl rfl (by simp [State.PhaseInv, hd, hfit, hr]; omega)

theorem decodeHeaderAdvance_inv (hI : s.Inv) (hp : s.phase = .decHdr) : (decodeHeaderAdvance s).Inv := by
  obtain ⟨hd, hL, hr⟩ := hI.decHdr hp
  unfold decodeHeaderAdvance
  split
  · exact hI.of_frame rfl rfl rfl rfl rfl (by simp [State.PhaseInv, hp, hd, hL, hr])
  · exact decodeHeaderEvaluate_inv hI hp

theorem decodePayloadAdvance_inv (hI : s.Inv) (hp : s.phase = .decPay) : (decodePayloadAdvance s).Inv := by
  obtain ⟨hd, hn, hL, hi, hr⟩ := hI.decPay hp
  unfold decodePayloadAdvance
  split
  · rename_i hlt
    exact hI.of_frame rfl rfl rfl rfl rfl
      (by simp [State.PhaseInv, hp, hd, hn, hL, hr, val_add_one_of_lt hlt, hlt])
  · exact hI.of_idle_frame rfl rfl rfl rfl rfl rfl

/-- The header accumulator is no part of the invariant while the header is read. -/
theorem State.Inv.withHacc (hI : s.Inv) (hp : s.phase = .decHdr) (v : Word) : (s.withHacc v).Inv := by
  obtain ⟨hd, hL, hr⟩ := hI.decHdr hp
  exact hI.of_frame rfl rfl rfl rfl rfl (by simp [State.PhaseInv, State.withHacc, hp, hd, hL, hr])

theorem State.Inv.withCharBits (hI : s.Inv) (hp : s.phase = .decPay) (acc : Byte) : (s.withCharBits acc).Inv := by
  obtain ⟨hd, hn, hL, hi, hr⟩ := hI.decPay hp
  unfold State.withCharBits
  split
  · exact hI.of_frame rfl rfl rfl rfl rfl (by simp [State.PhaseInv, hp, hd, hn, hL, hi, hr])
  · exact decodePayloadAdvance_inv (hI.setPay (by omega) _) hp

theorem State.Inv.afterBlockStep (hI : s.Inv) : s.afterBlockStep.Inv := by
  cases hp : s.phase with
  | idle => rw [afterBlockStep_idle hp]; exact hI
  | encHdr =>
    obtain ⟨hd, -, hL, -⟩ := hI.encHdr hp
    rw [afterBlockStep_encHdr hp]
    exact encodeHeaderAdvance_inv (hI.withSlot (by omega) _) hp
  | encPay =>
    obtain ⟨hd, -, hL, hi, -⟩ := hI.encPay hp
    rw [afterBlockStep_encPay hp]
    exact encodePayloadAdvance_inv (hI.withSlot (by omega) _) hp
  | decHdr =>
    rw [afterBlockStep_decHdr hp]
    exact decodeHeaderAdvance_inv (hI.withHacc hp _) hp
  | decPay =>
    rw [afterBlockStep_decPay hp]
    exact hI.withCharBits hp _

end Sys2Proof.Machine
end

section
/-! Proofs of the statements of 10_state on the parameters (R36) and the length registers (R26 to R28): what each
transaction and each BLOCK step leaves in them. -/

namespace Sys2Proof.Machine

variable {s t u : State} {x : Transaction}

/-! ### The parameters -/

theorem HostEffect.cfg_eq (h : HostEffect s x u) : u.cfg = s.cfg := by
  cases h with
  | startEncode hr hw => rw [encodeStart_frame]
  | startDecode hr hw => rw [decodeStart_frame]
  | _ => rfl

theorem phaseStep_cfg_eq (h : phaseStep s = .next t) : t.cfg = s.cfg := by
  rcases phaseStep_cases h with ⟨-, rfl⟩ | ⟨-, a, -, -, rfl⟩ | ⟨-, a, -, -, rfl⟩ | ⟨-, rfl⟩ |
    ⟨-, acc, -, ⟨-, rfl⟩ | ⟨-, -, rfl⟩⟩
  · rfl
  · rw [encodeHeaderAdvance_frame, setCar_cfg]
  · rw [encodePayloadAdvance_frame, setCar_cfg]
  · rw [decodeHeaderAdvance_frame]
  · rfl
  · rw [decodePayloadAdvance_frame, setPay_cfg]

/-- Settles O42: no transaction, BLOCK step or reset writes the parameters. -/
theorem stepKeepsTheParameters : Obligations.StepKeepsTheParameters := by
  intro s t h
  rcases step_cases h with ⟨x, u, -, heff, hfr⟩ | ⟨-, ⟨-, rfl⟩ | ⟨-, -, hstep⟩⟩ | ⟨-, rfl⟩
  · rw [hfr]
    exact heff.cfg_eq
  · rfl
  · exact (phaseStep_cfg_eq hstep).trans (takeEvent_cfg s)
  · rfl

/-! ### The length registers -/

/-- The length registers of `t` are those of `s`. -/
structure SameLengths (s t : State) : Prop where
  carLen : t.carLen = s.carLen
  payLen : t.payLen = s.payLen
  hdr : t.hdr = s.hdr

/-- What a step that ends a command leaves in the length registers: an ENCODE ends OK with HDR = PAY_LEN (41_encode R124),
a DECODE with its header in HDR, and in PAY_LEN too unless it ends OUT_OF_BOUNDS (42_decode R143, R145). -/
inductive EndLengths (s t : State) : Prop where
  | encode (hs : s.phase = .encHdr ∨ s.phase = .encPay) (hr : t.result = .ok) (hn : t.payLen = s.payLen)
      (hh : t.hdr = s.payLen)
  | decode (hs : s.phase = .decHdr ∨ s.phase = .decPay) (hr : t.result = .ok ∨ t.result = .empty)
      (hn : t.payLen = t.hdr) (hh : t.hdr = t.hacc)
  | outOfBounds (hs : s.phase = .decHdr ∨ s.phase = .decPay) (hr : t.result = .outOfBounds) (hn : t.payLen = s.payLen)
      (hh : t.hdr = t.hacc)

/-- Everything a BLOCK step can do to the length registers. -/
def BlockLengths (s t : State) : Prop := SameLengths s t ∨ (t.carLen = s.carLen ∧ t.phase = .idle ∧ EndLengths s t)

theorem encodeHeaderAdvance_lengths (hp : s.phase = .encHdr) : BlockLengths s (encodeHeaderAdvance s) := by
  unfold encodeHeaderAdvance
  split
  · exact .inl ⟨rfl, rfl, rfl⟩
  · split
    · exact .inr ⟨rfl, rfl, .encode (.inl hp) rfl rfl rfl⟩
    · exact .inl ⟨rfl, rfl, rfl⟩

theorem encodePayloadAdvance_lengths (hp : s.phase = .encPay) : BlockLengths s (encodePayloadAdvance s) := by
  unfold encodePayloadAdvance
  split
  · exact .inl ⟨rfl, rfl, rfl⟩
  · split
    · exact .inl ⟨rfl, rfl, rfl⟩
    · exact .inr ⟨rfl, rfl, .encode (.inr hp) rfl rfl rfl⟩

theorem decodeHeaderEvaluate_lengths (hp : s.phase = .decHdr) : BlockLengths s (decodeHeaderEvaluate s) := by
  unfold decodeHeaderEvaluate
  split
  · have hzero : (0 : Word) = s.hacc := (BitVec.eq_of_toNat_eq ‹_›).symm
    exact .inr ⟨rfl, rfl, .decode (.inl hp) (.inr rfl) rfl hzero⟩
  · split
    · exact .inr ⟨rfl, rfl, .outOfBounds (.inl hp) rfl rfl rfl⟩
    · exact .inl ⟨rfl, rfl, rfl⟩

theorem decodeHeaderAdvance_lengths (hp : s.phase = .decHdr) : BlockLengths s (decodeHeaderAdvance s) := by
  unfold decodeHeaderAdvance
  split
  · exact .inl ⟨rfl, rfl, rfl⟩
  · exact decodeHeaderEvaluate_lengths hp

theorem decodePayloadAdvance_lengths (hp : s.phase = .decPay) : BlockLengths s (decodePayloadAdvance s) := by
  unfold decodePayloadAdvance
  split
  · exact .inl ⟨rfl, rfl, rfl⟩
  · exact .inr ⟨rfl, rfl, .decode (.inr hp) (.inl rfl) rfl rfl⟩

/-- The updates of a BLOCK step before the sequencer goes on leave PHASE and the length registers. -/
theorem BlockLengths.of_same (h : BlockLengths u t) (hp : u.phase = s.phase) (hL : SameLengths s u) :
    BlockLengths s t := by
  obtain ⟨hc, hn, hh⟩ := hL
  rcases h with ⟨hc', hn', hh'⟩ | ⟨hc', hidle, hend⟩
  · exact .inl ⟨hc'.trans hc, hn'.trans hn, hh'.trans hh⟩
  · refine .inr ⟨hc'.trans hc, hidle, ?_⟩
    cases hend with
    | encode hs hr hn' hh' => exact .encode (hp ▸ hs) hr (hn'.trans hn) (hh'.trans hn)
    | decode hs hr hn' hh' => exact .decode (hp ▸ hs) hr hn' hh'
    | outOfBounds hs hr hn' hh' => exact .outOfBounds (hp ▸ hs) hr (hn'.trans hn) hh'

theorem phaseStep_lengths (h : phaseStep s = .next t) : BlockLengths s t := by
  rcases phaseStep_cases h with ⟨-, rfl⟩ | ⟨hp, a, -, -, rfl⟩ | ⟨hp, a, -, -, rfl⟩ | ⟨hp, rfl⟩ |
    ⟨hp, acc, -, ⟨-, rfl⟩ | ⟨-, -, rfl⟩⟩
  · exact .inl ⟨rfl, rfl, rfl⟩
  · exact .of_same (encodeHeaderAdvance_lengths hp) rfl ⟨rfl, rfl, rfl⟩
  · exact .of_same (encodePayloadAdvance_lengths hp) rfl ⟨rfl, rfl, rfl⟩
  · exact .of_same (decodeHeaderAdvance_lengths hp) rfl ⟨rfl, rfl, rfl⟩
  · exact .inl ⟨rfl, rfl, rfl⟩
  · exact .of_same (decodePayloadAdvance_lengths hp) rfl ⟨rfl, rfl, rfl⟩

/-- A host transaction changes a length register only as the RegWrite to CAR_LEN or PAY_LEN on an idle block without a
fault (43_host_interface R164). -/
theorem HostEffect.lengths (h : HostEffect s x u) :
    SameLengths s u ∨
    (s.ready ∧ x = .regWrite 2 u.carLen ∧ u.payLen = s.payLen ∧ u.hdr = s.hdr) ∨
    (s.ready ∧ x = .regWrite 3 u.payLen ∧ u.carLen = s.carLen ∧ u.hdr = s.hdr) := by
  cases h with
  | carLen hr => exact .inr (.inl ⟨hr, rfl, rfl, rfl⟩)
  | payLen hr => exact .inr (.inr ⟨hr, rfl, rfl, rfl⟩)
  | startEncode hr hw => rw [encodeStart_frame]; exact .inl ⟨rfl, rfl, rfl⟩
  | startDecode hr hw => rw [decodeStart_frame]; exact .inl ⟨rfl, rfl, rfl⟩
  | _ => exact .inl ⟨rfl, rfl, rfl⟩

/-- Everything a step can do to the length registers, by its next event. -/
inductive StepLengths (s t : State) : Prop where
  | same (h : SameLengths s t)
  | writesCarLen (hr : s.ready) (he : s.nextEvent = .host (.regWrite 2 t.carLen)) (hn : t.payLen = s.payLen)
      (hh : t.hdr = s.hdr)
  | writesPayLen (hr : s.ready) (he : s.nextEvent = .host (.regWrite 3 t.payLen)) (hc : t.carLen = s.carLen)
      (hh : t.hdr = s.hdr)
  | ends (he : s.nextEvent = .block) (hc : t.carLen = s.carLen) (hp : t.phase = .idle) (h : EndLengths s t)
  | reset (he : s.nextEvent = .reset) (hc : t.carLen = 0#32) (hn : t.payLen = 0#32) (hh : t.hdr = 0#32)

theorem step_lengths (h : step s = .next t) : StepLengths s t := by
  rcases step_cases h with ⟨x, u, he, heff, hfr⟩ | ⟨he, ⟨-, rfl⟩ | ⟨-, -, hstep⟩⟩ | ⟨he, rfl⟩
  · rw [hfr]
    rcases heff.lengths with ⟨hc, hn, hh⟩ | ⟨hr, rfl, hn, hh⟩ | ⟨hr, rfl, hc, hh⟩
    · exact .same ⟨hc, hn, hh⟩
    · exact .writesCarLen hr he hn hh
    · exact .writesPayLen hr he hc hh
  · exact .same ⟨rfl, rfl, rfl⟩
  · rcases (phaseStep_lengths hstep).of_same (s := s) rfl ⟨rfl, rfl, rfl⟩ with hsame | ⟨hc, hp, hend⟩
    · exact .same hsame
    · exact .ends he hc hp hend
  · exact .reset he rfl rfl rfl

/-- Settles O45: each of a step's effects on the length registers is one the statement names. -/
theorem lengthRegistersChangeOnlyByTheirRules : Obligations.LengthRegistersChangeOnlyByTheirRules := by
  intro s t h
  cases step_lengths h with
  | same h => exact ⟨absurd h.carLen, absurd h.payLen, absurd h.hdr⟩
  | writesCarLen hr he hn hh => exact ⟨fun _ => .inr ⟨hr, he⟩, absurd hn, absurd hh⟩
  | writesPayLen hr he hc hh => exact ⟨absurd hc, fun _ => .inr (.inl ⟨hr, he⟩), absurd hh⟩
  | reset he hc hn hh => exact ⟨fun _ => .inl ⟨he, hc⟩, fun _ => .inl ⟨he, hn⟩, fun _ => .inl ⟨he, hh⟩⟩
  | ends he hc hp hend =>
    cases hend with
    | encode hs hr hn hh => exact ⟨absurd hc, absurd hn, fun _ => .inr ⟨he, hp, .inl ⟨hs, hr, hh⟩⟩⟩
    | decode hs hr hn hh =>
      exact ⟨absurd hc, fun _ => .inr (.inr ⟨he, hs, hp, hr, hn⟩),
        fun _ => .inr ⟨he, hp, .inr ⟨hs, hr.imp_right .inl, hh⟩⟩⟩
    | outOfBounds hs hr hn hh =>
      exact ⟨absurd hc, absurd hn, fun _ => .inr ⟨he, hp, .inr ⟨hs, .inr (.inr hr), hh⟩⟩⟩

end Sys2Proof.Machine
end

section
/-! Proofs of the statements of 10_state on STATUS (R23 to R25) and the reset values (R35). -/

namespace Sys2Proof.Machine

/-! ### STATUS -/

/-- A field of width `w` that stands at bit `n` of a register. -/
theorem getLsbD_field {w : Nat} (c : BitVec w) (n b : Nat) (hw : n + w ≤ 32) :
    (c.setWidth 32 <<< n).getLsbD b = (decide (n ≤ b) && c.getLsbD (b - n)) := by
  rw [BitVec.getLsbD_shiftLeft, BitVec.getLsbD_setWidth]
  by_cases hb : b < 32
  · have hplace : (!decide (b < n)) = decide (n ≤ b) := by rw [← decide_not, decide_eq_decide, not_lt]
    have hwidth : b - n < 32 := by omega
    rw [hplace]
    simp [hb, hwidth]
  · simp [BitVec.getLsbD_of_ge c (b - n) (by omega)]

/-- STATUS bit by bit (10_state R23): each field from its lowest bit on. -/
theorem status_getLsbD (s : State) (b : Nat) :
    s.status.getLsbD b =
      ((decide (8 ≤ b) && s.faultCause.code.getLsbD (b - 8)) || (decide (4 ≤ b) && s.result.code.getLsbD (b - 4)) ||
        (decide (1 ≤ b) && (BitVec.ofBool s.fault).getLsbD (b - 1)) || (BitVec.ofBool s.busy).getLsbD b) := by
  have hbusy := getLsbD_field (BitVec.ofBool s.busy) 0 b (by omega)
  rw [BitVec.shiftLeft_zero] at hbusy
  rw [State.status, BitVec.getLsbD_or, BitVec.getLsbD_or, BitVec.getLsbD_or, getLsbD_field _ 8 b (by omega),
    getLsbD_field _ 4 b (by omega), getLsbD_field _ 1 b (by omega), hbusy]
  simp

/-- Settles O34: read off STATUS bit by bit; a field has no bits outside its place. -/
theorem statusFieldsAreWhereTheyStand : Obligations.StatusFieldsAreWhereTheyStand := by
  intro s
  refine ⟨?_, ?_, ?_, ?_, ?_, ?_⟩
  · rw [status_getLsbD]
    simp [State.busy]
  · rw [status_getLsbD]
    simp
  all_goals
    refine BitVec.eq_of_getLsbD_eq fun b hb => ?_
    rw [BitVec.getLsbD_extractLsb', status_getLsbD]
    simp (disch := omega) only [BitVec.getLsbD_of_ge, decide_eq_false]
    simp [hb]

/-- Settles O35: one evaluation per code. -/
theorem resultAndCauseCodes : Obligations.ResultAndCauseCodes := by
  refine ⟨by decide, by decide, fun r => ?_, fun c => ?_⟩
  · cases r <;> decide
  · cases c <;> decide

/-! ### Reset -/

theorem Memory.read_nil_of_find {w : Nat} {init : List (Nat × BitVec w)} {a : Nat} {v : BitVec w}
    (h : Memory.find init a = some v) : Memory.read init [] a = v := by
  rw [Memory.read, Memory.find_nil, Memory.unlisted, h]
  rfl

theorem status_powerOn (c : Config) : (State.powerOn c).status = 0#32 := by
  simp [State.status, State.busy, Result.code, FaultCause.code]

/-- Settles O36: every register has its reset value, and memory lists nothing, so it reads as RAM_INIT. -/
theorem powerOnLeavesResetValues : Obligations.PowerOnLeavesResetValues := by
  intro c
  refine ⟨status_powerOn c, rfl, rfl, rfl, rfl, rfl, rfl, rfl, rfl, rfl, rfl, rfl, rfl, ?_, ?_⟩
  · exact fun _ _ => Memory.read_nil_of_find
  · exact fun _ _ => Memory.read_nil_of_find

/-- Settles O37: the step is `assertReset`, which sets what power-on sets and keeps the memories. -/
theorem resetRestoresAllButMemory : Obligations.ResetRestoresAllButMemory := by
  intro s es hin
  rw [step_cons hin]
  rfl

end Sys2Proof.Machine
end

section
/-! Proof that a command ignores what earlier commands left (10_state R37, 70_reset_and_hazards R218): two runs of one
command agree step by step in everything that the command reads. -/

namespace Sys2Proof.Machine

variable {s s' : State}

/-- Two states agree in everything the running command reads; the other parts of the second are its own. The
sequencer's indices count while a phase runs, and the accumulators in the phases of DECODE. -/
structure CommandAgree (s s' : State) : Prop where
  frame : s' = { s with
    k := s'.k, i := s'.i, j := s'.j, hacc := s'.hacc, cacc := s'.cacc, hdr := s'.hdr, faultCause := s'.faultCause,
    replies := s'.replies, draws := s'.draws }
  indices : s.phase ≠ .idle → s'.k = s.k ∧ s'.i = s.i ∧ s'.j = s.j
  accumulators : s.phase = .decHdr ∨ s.phase = .decPay → s'.hacc = s.hacc ∧ s'.cacc = s.cacc

/-- Two states agree in HDR if the command that ran in them has completed. -/
def HdrAgree (s s' : State) : Prop := s.phase = .idle → s'.hdr = s.hdr

namespace CommandAgree

theorem cfg (h : CommandAgree s s') : s'.cfg = s.cfg := by rw [h.frame]
theorem phase (h : CommandAgree s s') : s'.phase = s.phase := by rw [h.frame]
theorem fault (h : CommandAgree s s') : s'.fault = s.fault := by rw [h.frame]
theorem result (h : CommandAgree s s') : s'.result = s.result := by rw [h.frame]
theorem carLen (h : CommandAgree s s') : s'.carLen = s.carLen := by rw [h.frame]
theorem payLen (h : CommandAgree s s') : s'.payLen = s.payLen := by rw [h.frame]
theorem car (h : CommandAgree s s') : s'.car = s.car := by rw [h.frame]
theorem pay (h : CommandAgree s s') : s'.pay = s.pay := by rw [h.frame]
theorem carAt (h : CommandAgree s s') (a : Nat) : s'.carAt a = s.carAt a := by
  rw [State.carAt, State.carAt, h.cfg, h.car]
theorem payAt (h : CommandAgree s s') (n : Nat) : s'.payAt n = s.payAt n := by
  rw [State.payAt, State.payAt, h.cfg, h.pay]

/-- While a phase runs the sequencer's indices are equal too. -/
theorem running_frame (h : CommandAgree s s') (hp : s.phase ≠ .idle) :
    s' = { s with
      hacc := s'.hacc, cacc := s'.cacc, hdr := s'.hdr, faultCause := s'.faultCause, replies := s'.replies,
      draws := s'.draws } := by
  obtain ⟨hk, hi, hj⟩ := h.indices hp
  rw [← hk, ← hi, ← hj]
  exact h.frame

/-- While DECODE runs the accumulators are equal as well. -/
theorem decode_frame (h : CommandAgree s s') (hp : s.phase = .decHdr ∨ s.phase = .decPay) :
    s' = { s with hdr := s'.hdr, faultCause := s'.faultCause, replies := s'.replies, draws := s'.draws } := by
  obtain ⟨hh, hc⟩ := h.accumulators hp
  rw [← hh, ← hc]
  exact h.running_frame (by rcases hp with hp | hp <;> simp [hp])

/-! ### The updates of a BLOCK step keep the agreement -/

theorem withSlot (h : CommandAgree s s') (a : Nat) (v : Bit) : CommandAgree (s.withSlot a v) (s'.withSlot a v) where
  frame := by
    rw [State.withSlot, State.withSlot, h.carAt, h.frame]
    rfl
  indices := h.indices
  accumulators := h.accumulators

theorem setPay (h : CommandAgree s s') (n : Nat) (v : CodeUnit) : CommandAgree (s.setPay n v) (s'.setPay n v) where
  frame := by
    rw [h.frame]
    rfl
  indices := h.indices
  accumulators := h.accumulators

theorem withHacc (h : CommandAgree s s') (v : Word) : CommandAgree (s.withHacc v) (s'.withHacc v) where
  frame := by
    rw [h.frame]
    rfl
  indices := h.indices
  accumulators hp := ⟨rfl, (h.accumulators hp).2⟩

/-! ### Where the sequencer goes next, and HDR at the command's end -/

theorem encodeHeaderAdvance (h : CommandAgree s s') (hp : s.phase = .encHdr) :
    CommandAgree (encodeHeaderAdvance s) (encodeHeaderAdvance s') ∧
      HdrAgree (Machine.encodeHeaderAdvance s) (Machine.encodeHeaderAdvance s') := by
  rw [h.running_frame (by simp [hp])]
  unfold Machine.encodeHeaderAdvance
  simp only
  split
  · exact ⟨⟨rfl, fun _ => ⟨rfl, rfl, rfl⟩, by simp [hp]⟩, by simp [HdrAgree, hp]⟩
  · split
    · exact ⟨⟨rfl, fun _ => ⟨rfl, rfl, rfl⟩, by simp [encodeComplete]⟩, fun _ => rfl⟩
    · exact ⟨⟨rfl, fun _ => ⟨rfl, rfl, rfl⟩, by simp⟩, by simp [HdrAgree]⟩

theorem encodePayloadAdvance (h : CommandAgree s s') (hp : s.phase = .encPay) :
    CommandAgree (encodePayloadAdvance s) (encodePayloadAdvance s') ∧
      HdrAgree (Machine.encodePayloadAdvance s) (Machine.encodePayloadAdvance s') := by
  rw [h.running_frame (by simp [hp])]
  unfold Machine.encodePayloadAdvance
  simp only
  split
  · exact ⟨⟨rfl, fun _ => ⟨rfl, rfl, rfl⟩, by simp [hp]⟩, by simp [HdrAgree, hp]⟩
  · split
    · exact ⟨⟨rfl, fun _ => ⟨rfl, rfl, rfl⟩, by simp [hp]⟩, by simp [HdrAgree, hp]⟩
    · exact ⟨⟨rfl, fun _ => ⟨rfl, rfl, rfl⟩, by simp [encodeComplete]⟩, fun _ => rfl⟩

theorem decodeHeaderAdvance (h : CommandAgree s s') (hp : s.phase = .decHdr) :
    CommandAgree (decodeHeaderAdvance s) (decodeHeaderAdvance s') ∧
      HdrAgree (Machine.decodeHeaderAdvance s) (Machine.decodeHeaderAdvance s') := by
  rw [h.decode_frame (.inl hp)]
  unfold Machine.decodeHeaderAdvance decodeHeaderEvaluate
  simp only
  split
  · exact ⟨⟨rfl, fun _ => ⟨rfl, rfl, rfl⟩, fun _ => ⟨rfl, rfl⟩⟩, by simp [HdrAgree, hp]⟩
  · split
    · exact ⟨⟨rfl, fun _ => ⟨rfl, rfl, rfl⟩, fun _ => ⟨rfl, rfl⟩⟩, fun _ => rfl⟩
    · split
      · exact ⟨⟨rfl, fun _ => ⟨rfl, rfl, rfl⟩, fun _ => ⟨rfl, rfl⟩⟩, fun _ => rfl⟩
      · exact ⟨⟨rfl, fun _ => ⟨rfl, rfl, rfl⟩, fun _ => ⟨rfl, rfl⟩⟩, by simp [HdrAgree]⟩

theorem decodePayloadAdvance (h : CommandAgree s s') (hp : s.phase = .decPay) :
    CommandAgree (decodePayloadAdvance s) (decodePayloadAdvance s') ∧
      HdrAgree (Machine.decodePayloadAdvance s) (Machine.decodePayloadAdvance s') := by
  rw [h.decode_frame (.inr hp)]
  unfold Machine.decodePayloadAdvance
  simp only
  split
  · exact ⟨⟨rfl, fun _ => ⟨rfl, rfl, rfl⟩, fun _ => ⟨rfl, rfl⟩⟩, by simp [HdrAgree, hp]⟩
  · exact ⟨⟨rfl, fun _ => ⟨rfl, rfl, rfl⟩, fun _ => ⟨rfl, rfl⟩⟩, fun _ => rfl⟩

theorem withCharBits (h : CommandAgree s s') (hp : s.phase = .decPay) (acc : Byte) :
    CommandAgree (s.withCharBits acc) (s'.withCharBits acc) ∧ HdrAgree (s.withCharBits acc) (s'.withCharBits acc) := by
  obtain ⟨hk, hi, hj⟩ := h.indices (by simp [hp])
  obtain ⟨hh, -⟩ := h.accumulators (.inr hp)
  unfold State.withCharBits
  rw [hi, hj]
  split
  · refine ⟨⟨?_, fun _ => ⟨hk, rfl, rfl⟩, fun _ => ⟨hh, rfl⟩⟩, by simp [HdrAgree, hp]⟩
    rw [h.frame]
  · exact (h.setPay s.i.val (charOut acc)).decodePayloadAdvance hp

/-! ### A BLOCK step, and any number of steps -/

/-- The BLOCK step of a running phase keeps the agreement, and if it ends the command then HDR agrees as well. -/
theorem afterBlockStep (h : CommandAgree s s') (hp : s.phase ≠ .idle) :
    CommandAgree s.afterBlockStep s'.afterBlockStep ∧ HdrAgree s.afterBlockStep s'.afterBlockStep := by
  obtain ⟨hk, hi, hj⟩ := h.indices hp
  cases hphase : s.phase with
  | idle => exact absurd hphase hp
  | encHdr =>
    rw [afterBlockStep_encHdr hphase, afterBlockStep_encHdr (h.phase.trans hphase), h.carLen, h.payLen, hk]
    exact (h.withSlot _ _).encodeHeaderAdvance hphase
  | encPay =>
    rw [afterBlockStep_encPay hphase, afterBlockStep_encPay (h.phase.trans hphase), h.carLen, h.payAt, hi, hj]
    exact (h.withSlot _ _).encodePayloadAdvance hphase
  | decHdr =>
    obtain ⟨hh, -⟩ := h.accumulators (.inl hphase)
    rw [afterBlockStep_decHdr hphase, afterBlockStep_decHdr (h.phase.trans hphase), h.carLen, h.carAt, hk, hh]
    exact (h.withHacc _).decodeHeaderAdvance hphase
  | decPay =>
    obtain ⟨-, hc⟩ := h.accumulators (.inr hphase)
    rw [afterBlockStep_decPay hphase, afterBlockStep_decPay (h.phase.trans hphase), h.carLen, h.carAt, hi, hj, hc]
    exact h.withCharBits hphase _

end CommandAgree

/-- Two idle states without a fault are alike in what a command reads at its start (10_state R37): an earlier command may
have left all the rest. -/
structure StartAlike (s s' : State) : Prop where
  ready : s.ready
  frame : s' = { s with
    result := s'.result, k := s'.k, i := s'.i, j := s'.j, hacc := s'.hacc, cacc := s'.cacc, hdr := s'.hdr,
    faultCause := s'.faultCause, replies := s'.replies, draws := s'.draws }

namespace StartAlike

/-- ENCODE starts, or is rejected, alike. -/
theorem encodeStart (h : StartAlike s s') : CommandAgree (encodeStart s) (encodeStart s') := by
  obtain ⟨hp, -⟩ := h.ready
  rw [h.frame]
  unfold Machine.encodeStart
  simp only
  split
  · exact ⟨rfl, by simp [hp], by simp [hp]⟩
  · split
    · exact ⟨rfl, by simp [hp], by simp [hp]⟩
    · exact ⟨rfl, fun _ => ⟨rfl, rfl, rfl⟩, by simp⟩

/-- DECODE starts, or is rejected, alike; it clears the accumulators when it starts. -/
theorem decodeStart (h : StartAlike s s') : CommandAgree (decodeStart s) (decodeStart s') := by
  obtain ⟨hp, -⟩ := h.ready
  rw [h.frame]
  unfold Machine.decodeStart
  simp only
  split
  · exact ⟨rfl, by simp [hp], by simp [hp]⟩
  · split
    · exact ⟨rfl, by simp [hp], by simp [hp]⟩
    · exact ⟨rfl, fun _ => ⟨rfl, rfl, rfl⟩, fun _ => ⟨rfl, rfl⟩⟩

end StartAlike

/-- What the write of a command's word to CMD does on an idle block without a fault (43_host_interface R163). -/
def commandStart : Instr → State → State
  | .encode => encodeStart
  | .decode => decodeStart

theorem exec_of_ready (i : Instr) (hr : s.ready) : exec i s = .next (commandStart i s) := by
  obtain ⟨hp, hf⟩ := hr
  cases i with
  | encode => exact congrArg Host.Outcome.next (guarded_of_ready encodeStart hf hp)
  | decode => exact congrArg Host.Outcome.next (guarded_of_ready decodeStart hf hp)

theorem commandStart_inv (i : Instr) (hI : s.Inv) (hr : s.ready) : (commandStart i s).Inv := by
  cases i with
  | encode => exact encodeStart_inv hI hr
  | decode => exact decodeStart_inv hI hr

theorem commandStart_inputs (i : Instr) (s : State) : (commandStart i s).inputs = s.inputs := by
  cases i with
  | encode => rw [commandStart, encodeStart_frame]
  | decode => rw [commandStart, decodeStart_frame]

theorem StartAlike.commandStart (h : StartAlike s s') (i : Instr) :
    CommandAgree (commandStart i s) (commandStart i s') := by
  cases i with
  | encode => exact h.encodeStart
  | decode => exact h.decodeStart

/-- `s` and `s'` are two runs of one command that no further input disturbs. -/
structure TwinRuns (s s' : State) : Prop where
  agree : CommandAgree s s'
  inv : s.Inv
  inv' : s'.Inv
  inputs : s.inputs = []
  inputs' : s'.inputs = []

/-- One step of both runs: both idle or both advanced, and a command that ends here ends with one HDR. -/
theorem TwinRuns.step (h : TwinRuns s s') :
    ∃ t t', step s = .next t ∧ step s' = .next t' ∧ TwinRuns t t' ∧
      ((t = s ∧ t' = s') ∨ HdrAgree t t') := by
  rw [step_nil h.inputs, step_nil h.inputs']
  by_cases hoff : s.phase = .idle ∨ s.fault = true
  · rw [blockTurn_of_not_enabled hoff, blockTurn_of_not_enabled (by rwa [h.agree.phase, h.agree.fault])]
    exact ⟨s, s', rfl, rfl, h, .inl ⟨rfl, rfl⟩⟩
  · obtain ⟨hp, hf⟩ := not_or.1 hoff
    rw [Bool.not_eq_true] at hf
    have hturn : blockTurn s = .next s.afterBlockStep := (blockTurn_of_enabled hp hf).trans h.inv.phaseStep_eq
    have hturn' : blockTurn s' = .next s'.afterBlockStep :=
      (blockTurn_of_enabled (h.agree.phase ▸ hp) (h.agree.fault.trans hf)).trans h.inv'.phaseStep_eq
    obtain ⟨hagree, hhdr⟩ := h.agree.afterBlockStep hp
    exact ⟨_, _, hturn, hturn', ⟨hagree, h.inv.afterBlockStep, h.inv'.afterBlockStep,
      (blockTurn_keeps_model hturn).1.trans h.inputs, (blockTurn_keeps_model hturn').1.trans h.inputs'⟩, .inr hhdr⟩

/-- Any number of steps of both runs. HDR agrees at the end if it agrees at the start, or if a command still runs there. -/
theorem TwinRuns.run (h : TwinRuns s s') (m : Nat) :
    ∃ u u', run m s = .next u ∧ run m s' = .next u' ∧ TwinRuns u u' ∧ (HdrAgree s s' → HdrAgree u u') := by
  induction m with
  | zero => exact ⟨s, s', rfl, rfl, h, id⟩
  | succ m ih =>
    obtain ⟨u, u', hu, hu', htwin, hhdr⟩ := ih
    obtain ⟨t, t', ht, ht', htwin', hend⟩ := htwin.step
    refine ⟨t, t', run_succ_last hu ht, run_succ_last hu' ht', htwin', fun hs => ?_⟩
    rcases hend with ⟨rfl, rfl⟩ | hend
    · exact hhdr hs
    · exact hend

/-- Settles O52: the two starts agree in all that the command reads, every BLOCK step keeps that, and the step that ends
an accepted command writes HDR from it. -/
theorem commandIgnoresEarlierCommands : Obligations.CommandIgnoresEarlierCommands := by
  intro i s s' m hI hI' hr hr' hin hin' hcfg hcarLen hpayLen hcar hpay
  have halike : StartAlike s s' := by
    refine ⟨hr, ?_⟩
    rw [← hcfg, ← hcarLen, ← hpayLen, ← hcar, ← hpay, hin, ← hin', hr.1, ← hr'.1, hr.2, ← hr'.2]
  have hstart : TwinRuns (commandStart i s) (commandStart i s') :=
    ⟨halike.commandStart i, commandStart_inv i hI hr, commandStart_inv i hI' hr',
      (commandStart_inputs i s).trans hin, (commandStart_inputs i s').trans hin'⟩
  obtain ⟨u, u', hu, hu', ⟨hagree, -⟩, hhdr⟩ := hstart.run m
  exact ⟨_, _, u, u', exec_of_ready i hr, exec_of_ready i hr', hu, hu', hagree.phase, hagree.result, hagree.fault,
    hagree.carLen, hagree.payLen, hagree.car, hagree.pay, fun hrun => hhdr fun hidle => absurd hidle hrun⟩

end Sys2Proof.Machine
end

section
/-! Proofs of the statements of 20_memory on one step: it answers (R52), keeps the invariant (R58), and changes a carrier
byte only by a CarWrite or an ENCODE slot step (R53). -/

namespace Sys2Proof.Machine

variable {s t u : State} {x : Transaction} {a : Nat}

/-! ### Every step answers a next state that meets the invariant -/

theorem State.Inv.blockTurn_eq_next (hI : s.Inv) : ∃ t, blockTurn s = .next t := by
  by_cases hoff : s.phase = .idle ∨ s.fault = true
  · exact ⟨s, blockTurn_of_not_enabled hoff⟩
  · obtain ⟨hp, hf⟩ := not_or.1 hoff
    rw [Bool.not_eq_true] at hf
    exact ⟨s.afterBlockStep, (blockTurn_of_enabled hp hf).trans hI.phaseStep_eq⟩

/-- Settles O41: a host transaction and the reset always answer, and a BLOCK step accesses memory inside its depth only. -/
theorem stepAlwaysAnswersNext : Obligations.StepAlwaysAnswersNext := by
  intro s hI
  rw [step]
  cases s.nextEvent with
  | host x =>
    obtain ⟨t, -, ht, -⟩ := transact_effect x s.takeEvent
    exact ⟨t, ht⟩
  | block => exact hI.takeEvent.blockTurn_eq_next
  | reset => exact ⟨_, rfl⟩

theorem HostMisuse.cause_ne_none {c : FaultCause} (h : HostMisuse s x c) : c ≠ .none := by
  cases h <;> decide

theorem State.Inv.hostEffect (hI : s.Inv) (h : HostEffect s x u) : u.Inv := by
  cases h with
  | quiet => exact hI
  | misuse hf hm =>
    rw [← raiseFault_of_not_fault _ hf]
    exact hI.raiseFault hm.cause_ne_none
  | carWrite hr ha => exact hI.setCar ha _
  | payWrite hr hn => exact hI.setPay hn _
  | startEncode hr hw => exact encodeStart_inv hI hr
  | startDecode hr hw => exact decodeStart_inv hI hr
  | carLen hr | payLen hr | illegal hr hw => exact hI.of_idle_frame rfl rfl rfl rfl rfl hr.1

/-- Settles O40: a host transaction acts on an idle block or leaves the operands alone, and a BLOCK step keeps the
phase's part of the invariant until it ends the command. -/
theorem stepKeepsTheInvariant : Obligations.StepKeepsTheInvariant := by
  intro s t hI h
  rcases step_cases h with ⟨x, u, -, heff, hfr⟩ | ⟨-, ⟨-, rfl⟩ | ⟨-, -, hstep⟩⟩ | ⟨-, rfl⟩
  · rw [hfr]
    exact (hI.takeEvent.hostEffect heff).of_model_fields _ _ _
  · exact hI.takeEvent
  · rw [hI.takeEvent.phaseStep_eq] at hstep
    cases hstep
    exact hI.takeEvent.afterBlockStep
  · exact hI.takeEvent.assertReset

/-! ### What changes a carrier byte -/

/-- An Insert that changes the byte flips bit 0 (40_datapath_units R106). -/
theorem insertBit_xor_of_ne {byte : Byte} {v : Bit} (h : insertBit byte v ≠ byte) : insertBit byte v ^^^ byte = 1#8 := by
  have hflip : v.getLsbD 0 ≠ byte.getLsbD 0 := by
    refine fun hsame => h (BitVec.eq_of_getLsbD_eq fun b _ => ?_)
    rw [insertBit_getLsbD]
    split
    · subst b; exact hsame
    · rfl
  refine BitVec.eq_of_getLsbD_eq fun b _ => ?_
  rw [BitVec.getLsbD_xor, insertBit_getLsbD, BitVec.getLsbD_one]
  split
  · subst b; simpa using hflip
  · rename_i hb; simp [hb]

theorem carAt_withSlot (hI : s.Inv) (b : Nat) (v : Bit) :
    (s.withSlot b v).carAt a = if a = b then insertBit (s.carAt b) v else s.carAt a :=
  carAt_setCar_of_wf hI.car_wf b a _

/-- A slot write that changes a carrier byte stands at it and flips its bit 0. -/
theorem withSlot_changes (hI : s.Inv) {b : Nat} {v : Bit} (h : (s.withSlot b v).carAt a ≠ s.carAt a) :
    a = b ∧ (s.withSlot b v).carAt a ^^^ s.carAt a = 1#8 := by
  rw [carAt_withSlot hI] at h ⊢
  by_cases hab : a = b
  · subst hab
    rw [if_pos rfl] at h ⊢
    exact ⟨rfl, insertBit_xor_of_ne h⟩
  · exact absurd (if_neg hab) h

theorem carAt_encodeHeaderAdvance (s : State) (a : Nat) : (encodeHeaderAdvance s).carAt a = s.carAt a := by
  rw [encodeHeaderAdvance_frame]; rfl

theorem carAt_encodePayloadAdvance (s : State) (a : Nat) : (encodePayloadAdvance s).carAt a = s.carAt a := by
  rw [encodePayloadAdvance_frame]; rfl

theorem carAt_decodeHeaderAdvance (s : State) (a : Nat) : (decodeHeaderAdvance s).carAt a = s.carAt a := by
  rw [decodeHeaderAdvance_frame]; rfl

theorem carAt_decodePayloadAdvance (s : State) (a : Nat) : (decodePayloadAdvance s).carAt a = s.carAt a := by
  rw [decodePayloadAdvance_frame]; rfl

theorem carAt_withCharBits (s : State) (acc : Byte) (a : Nat) : (s.withCharBits acc).carAt a = s.carAt a := by
  unfold State.withCharBits
  split
  · rfl
  · exact carAt_decodePayloadAdvance _ a

/-- A BLOCK step that changes a carrier byte is the ENCODE slot step standing at it. -/
theorem afterBlockStep_changes_carAt (hI : s.Inv) (h : s.afterBlockStep.carAt a ≠ s.carAt a) :
    s.afterBlockStep.carAt a ^^^ s.carAt a = 1#8 ∧
      ((s.phase = .encHdr ∧ a = s.carLen.toNat - 1 - s.k.val) ∨
       (s.phase = .encPay ∧ a = s.carLen.toNat - 33 - 8 * s.i.val - s.j.val)) := by
  cases hp : s.phase with
  | idle => exact absurd (by rw [afterBlockStep_idle hp]) h
  | encHdr =>
    rw [afterBlockStep_encHdr hp, carAt_encodeHeaderAdvance] at h ⊢
    obtain ⟨ha, hxor⟩ := withSlot_changes hI h
    exact ⟨hxor, .inl ⟨rfl, ha⟩⟩
  | encPay =>
    rw [afterBlockStep_encPay hp, carAt_encodePayloadAdvance] at h ⊢
    obtain ⟨ha, hxor⟩ := withSlot_changes hI h
    exact ⟨hxor, .inr ⟨rfl, ha⟩⟩
  | decHdr =>
    rw [afterBlockStep_decHdr hp, carAt_decodeHeaderAdvance] at h
    exact absurd rfl h
  | decPay =>
    rw [afterBlockStep_decPay hp, carAt_withCharBits] at h
    exact absurd rfl h

/-- A host transaction that changes a carrier byte is a CarWrite to it on an idle block without a fault
(43_host_interface R166). -/
theorem HostEffect.changes_carAt (hI : s.Inv) (heff : HostEffect s x u) (h : u.carAt a ≠ s.carAt a) :
    ∃ v, x = .carWrite a v ∧ s.ready ∧ a < s.cfg.carDepth ∧ u.carAt a = v := by
  cases heff with
  | @carWrite b v hr hb =>
    rw [carAt_setCar_of_wf hI.car_wf] at h ⊢
    by_cases hab : a = b
    · subst hab
      exact ⟨v, rfl, hr, hb, if_pos rfl⟩
    · exact absurd (if_neg hab) h
  | startEncode hr hw => rw [encodeStart_frame] at h; exact absurd rfl h
  | startDecode hr hw => rw [decodeStart_frame] at h; exact absurd rfl h
  | _ => exact absurd rfl h

/-- Settles O43: neither the reset nor a BLOCK turn without an enabled step touches CAR, and DECODE only reads it. -/
theorem carrierChangesOnlyBySlotOrCarWrite : Obligations.CarrierChangesOnlyBySlotOrCarWrite := by
  intro s t a hI h hne
  rcases step_cases h with ⟨x, u, he, heff, hfr⟩ | ⟨he, ⟨-, rfl⟩ | ⟨-, hf, hstep⟩⟩ | ⟨-, rfl⟩
  · have hcar : t.carAt a = u.carAt a := by rw [hfr]; rfl
    rw [hcar] at hne ⊢
    obtain ⟨v, rfl, hw⟩ := heff.changes_carAt hI.takeEvent hne
    exact .inl ⟨v, he, hw⟩
  · exact absurd rfl hne
  · rw [hI.takeEvent.phaseStep_eq] at hstep
    cases hstep
    exact .inr ⟨he, hf, afterBlockStep_changes_carAt hI.takeEvent hne⟩
  · exact absurd rfl hne

end Sys2Proof.Machine
end

section
/-! Proofs of the statements of 20_memory on a read after a write (R59, R66) and on how a command reaches the block
(R63). -/

namespace Sys2Proof.Machine

/-- Settles O53: the canonical memory's laws, with the extensionality taken at the memory after the write. -/
theorem memoryReadsTheLatestWrite : Obligations.MemoryReadsTheLatestWrite := by
  intro w depth init m a v hm ha
  have hwrite : Memory.wf init depth (Memory.write init m a v) = true := Memory.wf_write hm ha
  exact ⟨Memory.read_write_self hm, fun b hb => Memory.read_write_of_ne hb, hwrite,
    fun m' hm' hread => Memory.ext_of_read hm' hwrite hread⟩

/-- A table word of 32 bits is its own command word. -/
theorem commandWord_toNat (w : Word) : commandWord 32 w.toNat = w := by
  rw [commandWord, Nat.mod_eq_of_lt w.isLt, BitVec.ofNat_toNat, BitVec.setWidth_eq]

theorem decode_encode (i : Instr) : decode (encode i) = .command i := by
  cases i with
  | encode => exact Laws.RoundTrip.encode.2.2
  | decode => exact Laws.RoundTrip.decode.2.2

theorem hostCommandWrite_encode (i : Instr) (s : State) : hostCommandWrite (encode i) s = exec i s := by
  rw [hostCommandWrite, decode_encode]

/-- A command word placed in the inputs is written to CMD by the next step. -/
theorem step_withCommand (s : State) (w : Word) : step (s.withCommand w) = hostCommandWrite w s := rfl

/-- Settles O6: the placed word is the command's own, the next step writes it to CMD, and it decodes to the command. -/
theorem stepRunsThePlacedCommand : Obligations.StepRunsThePlacedCommand := by
  intro s i _
  rw [State.withFetchWord, if_pos le_rfl, commandWord_toNat, step_withCommand, hostCommandWrite_encode]

end Sys2Proof.Machine
end

section
/-! Proofs of the statements of 30_encoding: the command words (R70 to R72) and the pseudo-instructions of the host
notation (R82). -/

namespace Sys2Proof.Machine

/-- RES and OP together are the whole word (30_encoding R70). -/
theorem word_fieldsOf (w : Word) : (fieldsOf w).word = w :=
  BitVec.extractLsb'_append_extractLsb' (w := 28) (len := 4)

/-- Only a command's own fields are read as that command. -/
theorem fieldsOf_of_decode {w : Word} {i : Instr} (h : decode w = .command i) : fieldsOf w = i.fields := by
  unfold decode at h
  split_ifs at h with hres hencode hdecode
  · cases h
    exact congrArg₂ CommandFields.mk hencode (not_not.1 hres)
  · cases h
    exact congrArg₂ CommandFields.mk hdecode (not_not.1 hres)

/-- The decoder and the encoder agree in both directions: one word selects each command. -/
theorem decode_eq_command_iff (w : Word) (i : Instr) : decode w = .command i ↔ w = encode i := by
  constructor
  · intro h
    rw [encode, ← fieldsOf_of_decode h, word_fieldsOf]
  · rintro rfl
    exact decode_encode i

/-- Settles O1: each command is selected by its encoding alone, and the encodings are R71's two values. -/
theorem wordSelectsCommandExactlyByValue : Obligations.WordSelectsCommandExactlyByValue := fun w =>
  ⟨decode_eq_command_iff w .encode, decode_eq_command_iff w .decode⟩

/-- Settles O2, for every command, since each is well formed as it stands. -/
theorem decodeOfEncodeIsTheCommand : Obligations.DecodeOfEncodeIsTheCommand := fun i _ => decode_encode i

/-- Settles O3, by running the decoder on the eight words. -/
theorem sampleWordsDecode : Obligations.SampleWordsDecode := by
  unfold Obligations.SampleWordsDecode
  decide

theorem getElem?_expandLoadCar (a : Nat) (bs : List Byte) (x : Nat) :
    (expandLoadCar a bs)[x]? = bs[x]?.map fun b => .carw (a + x) b := by
  induction bs generalizing a x with
  | nil => rfl
  | cons b bs ih =>
    cases x with
    | zero => rfl
    | succ x => simpa [expandLoadCar, Nat.add_right_comm, Nat.add_assoc] using ih (a + 1) x

theorem getElem?_expandLoadPay (n : Nat) (cs : List CodeUnit) (x : Nat) :
    (expandLoadPay n cs)[x]? = cs[x]?.map fun c => .payw (n + x) c := by
  induction cs generalizing n x with
  | nil => rfl
  | cons c cs ih =>
    cases x with
    | zero => rfl
    | succ x => simpa [expandLoadPay, Nat.add_right_comm, Nat.add_assoc] using ih (n + 1) x

/-- FILLCAR is LOADCAR of one byte m times, so it writes that byte at the m offsets from `a` on. -/
theorem getElem?_expandFillCar (f a m : Nat) (b : Byte) (x : Nat) :
    (HostLine.expand f (.fillCar a m b))[x]? = if x < m then some (.carw (a + x) b) else none := by
  rw [HostLine.expand, getElem?_expandLoadCar, List.getElem?_replicate]
  split <;> rfl

/-- Settles O58: ENCODE, DECODE and WAIT expand as written, and the three others index by index. -/
theorem pseudoInstructionsExpand : Obligations.PseudoInstructionsExpand := fun f =>
  ⟨rfl, rfl, fun _ => rfl, getElem?_expandLoadCar, getElem?_expandLoadPay, getElem?_expandFillCar f⟩

end Sys2Proof.Machine
end

section
/-! Proofs of the statements of 40_datapath_units: the slot addresses (R102), the bit selectors and accumulators (R104,
R105, R107, R109), Insert (R106) and Fits (R111). -/

namespace Sys2Proof.Machine

/-! ### Slot addresses -/

theorem hdrSlot_bounds (L : Int) (k : Fin 32) : L - 32 ≤ hdrSlot L k ∧ hdrSlot L k ≤ L - 1 := by
  unfold hdrSlot; omega

theorem paySlot_bounds (L : Int) {i c : Nat} (hi : i < c) (j : Fin 8) :
    L - 32 - 8 * c ≤ paySlot L i j ∧ paySlot L i j ≤ L - 33 := by
  unfold paySlot; omega

theorem hdrSlot_injective (L : Int) : Function.Injective (hdrSlot L) := by
  intro k k' h
  unfold hdrSlot at h
  omega

/-- A payload slot's place `8 * i + j` has `j` as its remainder, so its address fixes both indices. -/
theorem paySlot_inj {L : Int} {i i' : Nat} {j j' : Fin 8} (h : paySlot L i j = paySlot L i' j') : i = i' ∧ j = j' := by
  unfold paySlot at h
  omega

/-- The header slots lie above all payload slots. -/
theorem hdrSlot_ne_paySlot (L : Int) (k : Fin 32) (i : Nat) (j : Fin 8) : hdrSlot L k ≠ paySlot L i j := by
  have hk := hdrSlot_bounds L k
  have hij := paySlot_bounds L i.lt_succ_self j
  omega

theorem exists_eq_hdrSlot_iff (L a : Int) : (∃ k : Fin 32, a = hdrSlot L k) ↔ L - 32 ≤ a ∧ a ≤ L - 1 := by
  constructor
  · rintro ⟨k, rfl⟩
    exact hdrSlot_bounds L k
  · rintro ⟨hlo, hhi⟩
    refine ⟨⟨(L - 1 - a).toNat, by omega⟩, ?_⟩
    simp only [hdrSlot]
    omega

/-- The offset `a` holds the payload bit whose place is its distance below L-33, divided by 8 with remainder. -/
theorem exists_eq_paySlot_iff (L a : Int) (c : Nat) :
    (∃ i, i < c ∧ ∃ j : Fin 8, a = paySlot L i j) ↔ L - 32 - 8 * c ≤ a ∧ a ≤ L - 33 := by
  constructor
  · rintro ⟨i, hi, j, rfl⟩
    exact paySlot_bounds L hi j
  · rintro ⟨hlo, hhi⟩
    refine ⟨(L - 33 - a).toNat / 8, by omega, ⟨(L - 33 - a).toNat % 8, by omega⟩, ?_⟩
    simp only [paySlot]
    omega

/-- Settles O54: the header slots are the 32 offsets below L, the payload slots the 8c offsets below those. -/
theorem slotsAreDistinctAndCoverTheFootprint : Obligations.SlotsAreDistinctAndCoverTheFootprint := by
  intro L c hL
  refine ⟨hdrSlot_bounds L, fun i hi j => ⟨by omega, paySlot_bounds L hi j⟩, fun k k' h => hdrSlot_injective L h,
    fun i i' _ _ j j' h => paySlot_inj h, fun k i j _ => hdrSlot_ne_paySlot L k i j, fun a => ?_⟩
  rw [exists_eq_hdrSlot_iff, exists_eq_paySlot_iff]
  omega

/-! ### Bit selectors and accumulators -/

theorem toNat_ofBool_getLsbD {w : Nat} (x : BitVec w) (i : Nat) :
    (BitVec.ofBool (x.getLsbD i)).toNat = x.toNat / 2 ^ i % 2 := by
  rw [BitVec.toNat_ofBool, BitVec.getLsbD, Nat.toNat_testBit]

/-- A bit ORed in above every set bit of an accumulator adds its weight. -/
theorem toNat_or_setWidth_shiftLeft {w k : Nat} {acc : BitVec w} (b : Bit) (hk : k < w) (hacc : acc.toNat < 2 ^ k) :
    (acc ||| (b.setWidth w <<< k)).toNat = acc.toNat + b.toNat * 2 ^ k := by
  have hb : b.toNat * 2 ^ k < 2 ^ w :=
    calc b.toNat * 2 ^ k ≤ 1 * 2 ^ k := Nat.mul_le_mul_right _ (Nat.le_of_lt_succ b.isLt)
      _ < 2 ^ w := by rw [Nat.one_mul]; exact Nat.pow_lt_pow_right (by decide) hk
  have hshift : (b.setWidth w <<< k).toNat = b.toNat <<< k := by
    rw [BitVec.toNat_shiftLeft, BitVec.toNat_setWidth_of_le (by omega), Nat.mod_eq_of_lt (by rwa [Nat.shiftLeft_eq])]
  rw [BitVec.toNat_or, hshift, Nat.or_comm, ← Nat.shiftLeft_add_eq_or_of_lt hacc, Nat.shiftLeft_eq, Nat.add_comm]

theorem toNat_charOut (acc : Byte) : (charOut acc).toNat = acc.toNat :=
  BitVec.toNat_setWidth_of_le (by decide)

/-- Settles O56: both selectors take one bit, both accumulators OR one in, and a byte zero-extended keeps its value. -/
theorem bitSelectorsAndAccumulatorsAgree : Obligations.BitSelectorsAndAccumulatorsAgree :=
  ⟨fun n k => toNat_ofBool_getLsbD n k, fun c j => toNat_ofBool_getLsbD c j,
    fun _ b k hacc => toNat_or_setWidth_shiftLeft b k.isLt hacc,
    fun _ b j hacc => toNat_or_setWidth_shiftLeft b j.isLt hacc, toNat_charOut⟩

/-! ### Insert -/

theorem insertBit_eq_self_iff (byte : Byte) (v : Bit) : insertBit byte v = byte ↔ byte.getLsbD 0 = v.getLsbD 0 := by
  have hbit := insertBit_getLsbD byte v
  constructor
  · intro h
    simpa [h] using hbit 0
  · intro hsame
    refine BitVec.eq_of_getLsbD_eq fun b _ => ?_
    rw [hbit]
    split
    · subst b; exact hsame.symm
    · rfl

/-- Settles O55: Insert's result bit by bit, and the XOR by whether the byte changes. -/
theorem insertChangesBitZeroOnly : Obligations.InsertChangesBitZeroOnly := by
  intro byte v
  have hxor : insertBit byte v ^^^ byte = 0x00#8 ↔ insertBit byte v = byte := BitVec.xor_eq_zero_iff
  refine ⟨fun b hb => ?_, insertBit_getLsbD byte v 0, ?_, hxor.trans (insertBit_eq_self_iff byte v),
    extractBit_insertBit byte v⟩
  · rw [insertBit_getLsbD, if_neg (by omega)]
  · by_cases h : insertBit byte v = byte
    · exact .inl (hxor.2 h)
    · exact .inr (insertBit_xor_of_ne h)

/-! ### Fits -/

/-- Settles O57: floor division by 8 is adjoint to multiplication by 8, for a negative L - 32 too. -/
theorem fitsAgreesWithFloorDivision : Obligations.FitsAgreesWithFloorDivision := by
  intro L c
  rw [fits_iff, Int.fdiv_eq_ediv_of_nonneg _ (by decide), Int.le_ediv_iff_mul_le (by decide)]
  omega

end Sys2Proof.Machine
end

section
/-! Proofs of the statements of 41_encode on the start of ENCODE (R121) and on its count (R127, R129). -/

namespace Sys2Proof.Machine

variable {s : State}

/-! ### The start of ENCODE -/

theorem encodeStart_of_not_inDepth (hd : ¬ (s.carLen.toNat ≤ s.cfg.carDepth ∧ s.payLen.toNat ≤ s.cfg.payDepth)) :
    encodeStart s = { s with result := .badConfig } := by
  rw [encodeStart, (inDepth_eq_false_iff ..).2 hd]
  rfl

theorem encodeStart_of_not_fits (hd : s.carLen.toNat ≤ s.cfg.carDepth ∧ s.payLen.toNat ≤ s.cfg.payDepth)
    (hL : s.carLen.toNat < 32 + 8 * s.payLen.toNat) : encodeStart s = { s with result := .capacityExceeded } := by
  rw [encodeStart, (inDepth_iff ..).2 hd, (fits_eq_false_iff ..).2 hL]
  rfl

/-- A rejected ENCODE changes RESULT alone (60_exceptions R181, R183). -/
theorem encodeStart_of_not_accepted (hr : s.ready) (ha : ¬ s.encodeAccepted) :
    ∃ r, encodeStart s = { s with result := r } := by
  by_cases hd : s.carLen.toNat ≤ s.cfg.carDepth ∧ s.payLen.toNat ≤ s.cfg.payDepth
  · have hL : s.carLen.toNat < 32 + 8 * s.payLen.toNat := not_le.1 fun hL => ha ⟨hr, hd.1, hd.2, hL⟩
    exact ⟨_, encodeStart_of_not_fits hd hL⟩
  · exact ⟨_, encodeStart_of_not_inDepth hd⟩

/-- The write of ENCODE's word to CMD is its start, on an idle block without a fault (43_host_interface R163). -/
theorem exec_encode_of_ready (hr : s.ready) : exec .encode s = .next (encodeStart s) := exec_of_ready .encode hr

/-- Settles O8: on an idle block without a fault `exec` is the start, which checks the depths, then the fit. -/
theorem encodeStartDecidesInOrder : Obligations.EncodeStartDecidesInOrder := by
  intro s hr
  rw [exec_encode_of_ready hr]
  refine ⟨fun hd => ?_, fun hd hL => ?_, fun hd hL => ?_⟩
  · rw [encodeStart_of_not_inDepth hd]
  · rw [encodeStart_of_not_fits hd hL]
  · rw [encodeStart_of_accepted ⟨hr, hd.1, hd.2, hL⟩]

/-! ### The count -/

/-- Settles O13: 8n < L < 2^32 bounds n, and a number below 2^29 has no bit from 29 on. -/
theorem encodedHeaderTopBitsAreZero : Obligations.EncodedHeaderTopBitsAreZero := by
  rintro s ⟨-, -, -, hL⟩
  have hcount : s.payLen.toNat < 2 ^ 29 := by
    have := s.carLen.isLt
    omega
  refine ⟨hcount, fun k hk => ?_⟩
  have hbit : s.payLen.getLsbD k.val = false :=
    Nat.testBit_lt_two_pow (hcount.trans_le (Nat.pow_le_pow_right (by decide) hk))
  rw [hdrBit, hbit]
  rfl

/-! ### STATUS without a fault -/

/-- Without a fault recorded, STATUS shows RESULT and BUSY alone (10_state R23). -/
theorem status_of_not_fault (hf : s.fault = false) (hc : s.faultCause = .none) :
    s.status = (s.result.code.setWidth 32 <<< 4) ||| (BitVec.ofBool s.busy).setWidth 32 := by
  simp [State.status, hf, hc, FaultCause.code]

theorem status_of_ready (hr : s.ready) (hc : s.faultCause = .none) : s.status = s.result.code.setWidth 32 <<< 4 := by
  obtain ⟨hp, hf⟩ := hr
  rw [status_of_not_fault hf hc, busy_eq_false_iff.2 hp]
  exact BitVec.or_zero

theorem State.Inv.faultCause_of_not_fault (hI : s.Inv) (hf : s.fault = false) : s.faultCause = .none := by
  by_contra hc
  exact absurd (hI.cause_iff.2 hc) (by simp [hf])

/-- Settles O14: by R111 the fit fails, so the start is rejected, and no fault is recorded in STATUS. -/
theorem encodeTooLongIsRejected : Obligations.EncodeTooLongIsRejected := by
  intro s hI hr hc hn hlong
  have hL : s.carLen.toNat < 32 + 8 * s.payLen.toNat := by
    have hfit := fitsAgreesWithFloorDivision s.carLen.toNat s.payLen.toNat
    rw [fits_iff] at hfit
    omega
  refine ⟨_, exec_encode_of_ready hr, ?_⟩
  rw [encodeStart_of_not_fits ⟨hc, hn⟩ hL]
  exact ⟨status_of_ready hr (hI.faultCause_of_not_fault hr.2), fun _ => rfl⟩

end Sys2Proof.Machine
end

section
/-! Proofs of the statements of 41_encode on one BLOCK step: each ENCODE step (R122, R123), and that no BLOCK step raises
a fault (R126; 42_decode R147). -/

namespace Sys2Proof.Machine

variable {s t : State}

/-! ### No BLOCK step raises a fault -/

theorem phaseStep_fault_eq (h : phaseStep s = .next t) : t.fault = s.fault ∧ t.faultCause = s.faultCause := by
  rcases phaseStep_cases h with ⟨-, rfl⟩ | ⟨-, a, -, -, rfl⟩ | ⟨-, a, -, -, rfl⟩ | ⟨-, rfl⟩ |
    ⟨-, acc, -, ⟨-, rfl⟩ | ⟨-, -, rfl⟩⟩
  · exact ⟨rfl, rfl⟩
  · rw [encodeHeaderAdvance_frame]; exact ⟨rfl, rfl⟩
  · rw [encodePayloadAdvance_frame]; exact ⟨rfl, rfl⟩
  · rw [decodeHeaderAdvance_frame]; exact ⟨rfl, rfl⟩
  · exact ⟨rfl, rfl⟩
  · rw [decodePayloadAdvance_frame]; exact ⟨rfl, rfl⟩

/-- Settles O32: the invariant keeps every access inside its memory, so the turn answers, and no BLOCK step writes FAULT
or FAULT_CAUSE. -/
theorem blockStepsNeverFault : Obligations.BlockStepsNeverFault := by
  intro s hI he
  obtain ⟨t, ht⟩ := hI.takeEvent.blockTurn_eq_next
  refine ⟨t, (step_block he).trans ht, ?_⟩
  rcases blockTurn_cases ht with ⟨-, rfl⟩ | ⟨-, -, hstep⟩
  · exact ⟨rfl, rfl⟩
  · exact (phaseStep_fault_eq hstep :)

/-! ### The ENCODE steps -/

/-- On a BLOCK event a running command without a fault makes the BLOCK step of its phase. -/
theorem State.Inv.step_eq_afterBlockStep (hI : s.Inv) (hp : s.phase ≠ .idle) (hf : s.fault = false)
    (he : s.nextEvent = .block) : step s = .next s.takeEvent.afterBlockStep := by
  rw [step_block he, blockTurn_of_enabled (s := s.takeEvent) hp hf, hI.takeEvent.phaseStep_eq]

/-- A slot write in the terms of the byte read. -/
theorem carAt_withSlot_byte (hI : s.Inv) (a b : Nat) (v : Bit) :
    (s.withSlot b v).carAt a = if a = b then insertBit (s.carAt a) v else s.carAt a := by
  rw [carAt_withSlot hI]
  split
  · subst a; rfl
  · rfl

/-- A data bit in a carrier byte's width is the word shifted right and masked. -/
theorem setWidth_ofBool_getLsbD {w : Nat} (x : BitVec w) (k : Nat) :
    (BitVec.ofBool (x.getLsbD k)).setWidth 8 = ((x >>> k) &&& 1#w).setWidth 8 := by
  refine BitVec.eq_of_getLsbD_eq fun b hb => ?_
  by_cases hb0 : b = 0
  · subst hb0
    by_cases hw : w = 0
    · subst hw; simp [BitVec.getLsbD_of_ge]
    · simp [Nat.pos_of_ne_zero hw]
  · simp [hb0]

/-- The byte of a header slot in the terms of R122. -/
theorem insertBit_hdrBit (byte : Byte) (n : Word) (k : Fin 32) :
    insertBit byte (hdrBit n k) = (byte &&& 0xFE#8) ||| ((n >>> k.val) &&& 1#32).setWidth 8 := by
  rw [insertBit_eq_or, hdrBit, setWidth_ofBool_getLsbD]

/-- The byte of a payload slot in the terms of R123. -/
theorem insertBit_charBit (byte : Byte) (c : CodeUnit) (j : Fin 8) :
    insertBit byte (charBit c j) = (byte &&& 0xFE#8) ||| ((c >>> j.val) &&& 1#16).setWidth 8 := by
  rw [insertBit_eq_or, charBit, setWidth_ofBool_getLsbD]

theorem encodeHeaderAdvance_of_lt (hk : s.k.val < 31) : encodeHeaderAdvance s = { s with k := s.k + 1 } := if_pos hk

theorem encodeHeaderAdvance_of_last_empty (hk : s.k.val = 31) (hn : s.payLen = 0#32) :
    encodeHeaderAdvance s = encodeComplete s := by
  rw [encodeHeaderAdvance, if_neg (by omega), if_pos (by rw [hn]; rfl)]

theorem encodeHeaderAdvance_of_last (hk : s.k.val = 31) (hn : s.payLen ≠ 0#32) :
    encodeHeaderAdvance s = { s with phase := .encPay, i := 0, j := 0 } := by
  have hcount : s.payLen.toNat ≠ 0 := fun h0 => hn (BitVec.eq_of_toNat_eq h0)
  rw [encodeHeaderAdvance, if_neg (by omega), if_neg hcount]

/-- Settles O9: the step writes slot L-1-k, and then one of the three ways of the sequencer is taken. -/
theorem encodeHeaderStepWritesOneSlot : Obligations.EncodeHeaderStepWritesOneSlot := by
  intro s hI hp hf he
  refine ⟨_, hI.step_eq_afterBlockStep (by simp [hp]) hf he, ?_⟩
  rw [afterBlockStep_encHdr (s := s.takeEvent) hp]
  refine ⟨fun a => ?_, fun hk => ?_, fun hk hn => ?_, fun hk hn => ?_⟩
  · rw [carAt_encodeHeaderAdvance, carAt_withSlot_byte hI.takeEvent, insertBit_hdrBit]
    rfl
  · rw [encodeHeaderAdvance_of_lt (s := s.takeEvent.withSlot _ _) hk]; rfl
  · rw [encodeHeaderAdvance_of_last_empty (s := s.takeEvent.withSlot _ _) hk hn]; rfl
  · rw [encodeHeaderAdvance_of_last (s := s.takeEvent.withSlot _ _) hk hn]; rfl

theorem encodePayloadAdvance_of_lt (hj : s.j.val < 7) : encodePayloadAdvance s = { s with j := s.j + 1 } := if_pos hj

theorem encodePayloadAdvance_of_next_char (hj : s.j.val = 7) (hi : s.i.val + 1 < s.payLen.toNat) :
    encodePayloadAdvance s = { s with i := s.i + 1, j := 0 } := by
  rw [encodePayloadAdvance, if_neg (by omega), if_pos hi]

theorem encodePayloadAdvance_of_last (hj : s.j.val = 7) (hi : s.payLen.toNat ≤ s.i.val + 1) :
    encodePayloadAdvance s = encodeComplete s := by
  rw [encodePayloadAdvance, if_neg (by omega), if_neg (by omega)]

/-- Settles O10: the step writes slot L-33-8i-j, and then one of the three ways of the sequencer is taken. -/
theorem encodePayloadStepWritesOneSlot : Obligations.EncodePayloadStepWritesOneSlot := by
  intro s hI hp hf he
  refine ⟨_, hI.step_eq_afterBlockStep (by simp [hp]) hf he, ?_⟩
  rw [afterBlockStep_encPay (s := s.takeEvent) hp]
  refine ⟨fun a => ?_, fun hj => ?_, fun hj hi => ?_, fun hj hi => ?_⟩
  · rw [carAt_encodePayloadAdvance, carAt_withSlot_byte hI.takeEvent, insertBit_charBit]
    rfl
  · rw [encodePayloadAdvance_of_lt (s := s.takeEvent.withSlot _ _) hj]; rfl
  · rw [encodePayloadAdvance_of_next_char (s := s.takeEvent.withSlot _ _) hj hi]; rfl
  · rw [encodePayloadAdvance_of_last (s := s.takeEvent.withSlot _ _) hj hi]; rfl

end Sys2Proof.Machine
end

section
/-! Proofs of the statements of 41_encode on a whole ENCODE: what it shows while it runs (R125, R127), and its end state
(R128). -/

namespace Sys2Proof.Machine

variable {s u : State}

/-! ### While it runs -/

theorem EncodeAt.phase_ne_idle {m : Nat} (h : EncodeAt s m u) : u.phase ≠ .idle := by
  rcases h.place with ⟨-, hp, -⟩ | ⟨-, hp, -⟩ <;> simp [hp]

/-- A running ENCODE shows BUSY with RESULT = NONE. -/
theorem EncodeAt.status {m : Nat} (h : EncodeAt s m u) (hI : s.Inv) (hf : s.fault = false) : u.status = 1#32 := by
  have hfu : u.fault = false := by rw [h.frame]; exact hf
  have hcu : u.faultCause = .none := by rw [h.frame]; exact hI.faultCause_of_not_fault hf
  have hru : u.result = .none := by rw [h.frame]
  rw [status_of_not_fault hfu hcu, hru, busy_iff.2 h.phase_ne_idle]
  rfl

/-- Settles O12: after fewer than 32 + 8n steps the command is still running, and a running ENCODE leaves the length
registers. -/
theorem encodeBusyUntilLastStep : Obligations.EncodeBusyUntilLastStep := by
  intro s m hI ha hin hm
  obtain ⟨u, hrun, hu⟩ := run_encode hI ha hin hm
  refine ⟨_, u, execEncode_of_accepted ha, hrun, hu.status hI ha.1.2, ?_⟩
  rw [hu.frame]
  exact ⟨rfl, rfl, rfl⟩

/-! ### Its end state -/

theorem slotBit_header (s : State) (k : Fin 32) : s.slotBit k.val = s.payLen.getLsbD k.val := if_pos k.isLt

theorem slotBit_payload (s : State) (i : Nat) (j : Fin 8) :
    s.slotBit (32 + 8 * i + j.val) = (s.payAt i).getLsbD j.val := by
  have hi : (32 + 8 * i + j.val - 32) / 8 = i := by omega
  have hj : (32 + 8 * i + j.val - 32) % 8 = j.val := by omega
  rw [State.slotBit, if_neg (by omega), hi, hj]

/-- A slot already written holds its data bit in bit 0. -/
theorem carAfter_slot {m x : Nat} (hx : x < m) (hL : x < s.carLen.toNat) :
    s.carAfter m (s.carLen.toNat - 1 - x) =
      insertBit (s.carAt (s.carLen.toNat - 1 - x)) (BitVec.ofBool (s.slotBit x)) := by
  have hslot : s.carLen.toNat - 1 - (s.carLen.toNat - 1 - x) = x := by omega
  rw [State.carAfter, if_pos (by omega), hslot]

theorem carAfter_of_not_slot {m a : Nat} (ha : a < s.carLen.toNat - m ∨ s.carLen.toNat ≤ a) :
    s.carAfter m a = s.carAt a := if_neg (by omega)

/-- No slot write reaches bits 7:1 of a byte (40_datapath_units R106). -/
theorem carAfter_xor_carAt (m a : Nat) : (s.carAfter m a ^^^ s.carAt a) &&& 0xFE#8 = 0#8 := by
  rw [State.carAfter]
  split
  · exact insertBit_xor ..
  · rw [BitVec.xor_self, BitVec.zero_and]

/-- Settles O11: after the last step every slot has been written once, slot x at L-1-x, and nothing else in CAR; a
rejected ENCODE changes RESULT alone. -/
theorem encodeEndState : Obligations.EncodeEndState := by
  constructor
  · intro s hI ha hin
    obtain ⟨u, hrun, hframe, -, hcar⟩ := run_encode_all hI ha hin
    have hstart := execEncode_of_accepted ha
    obtain ⟨-, -, -, hL⟩ := ha
    refine ⟨_, u, hstart, hrun, fun k => ?_, fun i hi j => ?_, fun a hout => ?_, fun a => ?_, hframe⟩
    · rw [hcar, carAfter_slot (by omega) (by omega), slotBit_header, insertBit_eq_or]
    · have hslot : s.carLen.toNat - 33 - 8 * i - j.val = s.carLen.toNat - 1 - (32 + 8 * i + j.val) := by omega
      rw [hcar, hslot, carAfter_slot (by omega) (by omega), slotBit_payload, insertBit_eq_or]
    · rw [hcar, carAfter_of_not_slot (by omega)]
    · rw [hcar, carAfter_xor_carAt]
  · intro s hr hna
    obtain ⟨r, hstart⟩ := encodeStart_of_not_accepted hr hna
    refine ⟨_, exec_encode_of_ready hr, ?_⟩
    rw [hstart]
    exact ⟨hr.1, fun _ => rfl⟩

end Sys2Proof.Machine
end

section
/-! Proofs of the statements of 42_decode on the start of DECODE (R141) and on the evaluation of its header (R143). -/

namespace Sys2Proof.Machine

variable {s : State}

/-! ### The start of DECODE -/

theorem decodeStart_of_not_inDepth (hd : s.cfg.carDepth < s.carLen.toNat) :
    decodeStart s = { s with result := .badConfig } := by
  rw [decodeStart, (inDepth_eq_false_iff ..).2 fun h => absurd h.1 (by omega)]
  rfl

theorem decodeStart_of_not_fits (hd : s.carLen.toNat ≤ s.cfg.carDepth) (hL : s.carLen.toNat < 32) :
    decodeStart s = { s with result := .outOfBounds } := by
  rw [decodeStart, (inDepth_iff ..).2 ⟨hd, Nat.zero_le _⟩, (fits_eq_false_iff ..).2 hL]
  rfl

/-- A rejected DECODE changes RESULT alone (60_exceptions R182, R183). -/
theorem decodeStart_of_not_accepted (hr : s.ready) (ha : ¬ s.decodeAccepted) :
    ∃ r, decodeStart s = { s with result := r } := by
  by_cases hd : s.carLen.toNat ≤ s.cfg.carDepth
  · have hL : s.carLen.toNat < 32 := not_le.1 fun hL => ha ⟨hr, hd, hL⟩
    exact ⟨_, decodeStart_of_not_fits hd hL⟩
  · exact ⟨_, decodeStart_of_not_inDepth (not_le.1 hd)⟩

/-- The write of DECODE's word to CMD is its start, on an idle block without a fault (43_host_interface R163). -/
theorem exec_decode_of_ready (hr : s.ready) : exec .decode s = .next (decodeStart s) := exec_of_ready .decode hr

/-- Settles O15: on an idle block without a fault `exec` is the start, which checks the depth, then the room for a
header. -/
theorem decodeStartDecidesInOrder : Obligations.DecodeStartDecidesInOrder := by
  intro s hr
  rw [exec_decode_of_ready hr]
  refine ⟨fun hd => ?_, fun hd hL => ?_, fun hd hL => ?_⟩
  · rw [decodeStart_of_not_inDepth hd]
  · rw [decodeStart_of_not_fits hd hL]
  · rw [decodeStart_of_accepted ⟨hr, hd, hL⟩]

/-! ### The header evaluation -/

theorem decodeHeaderEvaluate_of_zero (h0 : s.hacc = 0#32) :
    decodeHeaderEvaluate s = { s with hdr := 0, payLen := 0, result := .empty, phase := .idle } := by
  rw [decodeHeaderEvaluate, if_pos (by rw [h0]; rfl)]
  rfl

theorem decodeHeaderEvaluate_of_not_fits (h0 : s.hacc ≠ 0#32)
    (hbad : s.carLen.toNat < 32 + 8 * s.hacc.toNat ∨ s.cfg.payDepth < s.hacc.toNat) :
    decodeHeaderEvaluate s = { s with hdr := s.hacc, result := .outOfBounds, phase := .idle } := by
  have hcount : s.hacc.toNat ≠ 0 := fun h => h0 (BitVec.eq_of_toNat_eq h)
  rw [decodeHeaderEvaluate, if_neg hcount, if_pos (by simpa using hbad)]
  rfl

theorem decodeHeaderEvaluate_of_fits (h0 : s.hacc ≠ 0#32) (hL : 32 + 8 * s.hacc.toNat ≤ s.carLen.toNat)
    (hn : s.hacc.toNat ≤ s.cfg.payDepth) :
    decodeHeaderEvaluate s = { s with phase := .decPay, i := 0, j := 0, cacc := 0 } := by
  have hcount : s.hacc.toNat ≠ 0 := fun h => h0 (BitVec.eq_of_toNat_eq h)
  rw [decodeHeaderEvaluate, if_neg hcount, if_neg (by simp; omega)]

/-- Settles O20: a header of 2^31 or more asks for more than 2^32 slots, and no CAR_LEN reaches that. -/
theorem headerWithTopBitIsOutOfBounds : Obligations.HeaderWithTopBitIsOutOfBounds := by
  intro s htop
  have hlarge : 2 ^ 31 ≤ s.hacc.toNat := Nat.ge_two_pow_of_testBit htop
  have hlen := s.carLen.isLt
  refine decodeHeaderEvaluate_of_not_fits (fun h0 => ?_) (.inl (by omega))
  simp [h0] at htop

end Sys2Proof.Machine
end

section
/-! Proofs of the statements of 42_decode on one BLOCK step: each DECODE step (R142 to R145), and what changes a payload
entry (R140). -/

namespace Sys2Proof.Machine

variable {s t u : State} {x : Transaction} {n : Nat}

/-! ### The DECODE header step -/

/-- An extracted bit in a wider word is the carrier byte masked (40_datapath_units R108). -/
theorem setWidth_extractBit (byte : Byte) (w : Nat) : (extractBit byte).setWidth w = (byte &&& 1#8).setWidth w := by
  refine BitVec.eq_of_getLsbD_eq fun b hb => ?_
  by_cases h0 : b = 0
  · subst h0; simp [extractBit, hb]
  · simp [extractBit, h0]

/-- The header accumulated in the terms of R142. -/
theorem hdrAcc_extractBit (acc : Word) (byte : Byte) (k : Fin 32) :
    hdrAcc acc (extractBit byte) k = acc ||| ((byte &&& 1#8).setWidth 32 <<< k.val) := by
  rw [hdrAcc, setWidth_extractBit]

/-- The character accumulated in the terms of R144. -/
theorem charAcc_extractBit (acc byte : Byte) (j : Fin 8) :
    charAcc acc (extractBit byte) j = acc ||| ((byte &&& 1#8) <<< j.val) := by
  rw [charAcc, setWidth_extractBit, BitVec.setWidth_eq]

theorem decodeHeaderAdvance_of_lt (hk : s.k.val < 31) : decodeHeaderAdvance s = { s with k := s.k + 1 } := if_pos hk

theorem decodeHeaderAdvance_of_last (hk : s.k.val = 31) : decodeHeaderAdvance s = decodeHeaderEvaluate s :=
  if_neg (by omega)

/-- Settles O16: the step accumulates the bit of slot L-1-k, and the one with k = 31 evaluates the header. -/
theorem decodeHeaderStepReadsOneSlot : Obligations.DecodeHeaderStepReadsOneSlot := by
  intro s hI hp hf he
  refine ⟨_, hdrAcc_extractBit .., ?_⟩
  rw [hI.step_eq_afterBlockStep (by simp [hp]) hf he, afterBlockStep_decHdr (s := s.takeEvent) hp]
  refine ⟨fun hk => ?_, fun hk h0 => ?_, fun hk h0 hbad => ?_, fun hk h0 hL hn => ?_⟩
  · rw [decodeHeaderAdvance_of_lt (s := s.takeEvent.withHacc _) hk]; rfl
  · rw [decodeHeaderAdvance_of_last (s := s.takeEvent.withHacc _) hk, decodeHeaderEvaluate_of_zero h0]; rfl
  · rw [decodeHeaderAdvance_of_last (s := s.takeEvent.withHacc _) hk, decodeHeaderEvaluate_of_not_fits h0 hbad]; rfl
  · rw [decodeHeaderAdvance_of_last (s := s.takeEvent.withHacc _) hk, decodeHeaderEvaluate_of_fits h0 hL hn]; rfl

/-! ### The DECODE payload step -/

theorem withCharBits_of_lt (acc : Byte) (hj : s.j.val < 7) :
    s.withCharBits acc = { s with cacc := acc, j := s.j + 1 } := if_pos hj

theorem withCharBits_of_eighth (acc : Byte) (hj : s.j.val = 7) :
    s.withCharBits acc = decodePayloadAdvance (s.setPay s.i.val (charOut acc)) := if_neg (by omega)

theorem decodePayloadAdvance_of_next_char (hi : s.i.val + 1 < s.hacc.toNat) :
    decodePayloadAdvance s = { s with cacc := 0, i := s.i + 1, j := 0 } := if_pos hi

theorem decodePayloadAdvance_of_last (hi : s.hacc.toNat ≤ s.i.val + 1) :
    decodePayloadAdvance s = decodeComplete { s with cacc := 0 } := if_neg (by omega)

theorem payAt_decodePayloadAdvance (s : State) (n : Nat) : (decodePayloadAdvance s).payAt n = s.payAt n := by
  rw [decodePayloadAdvance_frame]; rfl

/-- A payload step writes PAY[i] at the character's eighth bit, and no other entry (42_decode R144). -/
theorem payAt_withCharBits (hI : s.Inv) (acc : Byte) (n : Nat) :
    (s.withCharBits acc).payAt n = if s.j.val = 7 ∧ n = s.i.val then charOut acc else s.payAt n := by
  have hj := s.j.isLt
  by_cases hlt : s.j.val < 7
  · rw [withCharBits_of_lt acc hlt, if_neg (by omega)]
    rfl
  · have hj7 : s.j.val = 7 := by omega
    rw [withCharBits_of_eighth acc hj7, payAt_decodePayloadAdvance, payAt_setPay_of_wf hI.pay_wf]
    simp [hj7]

/-- Settles O17: the step accumulates the bit of slot L-33-8i-j; the eighth one writes the character, and then goes on
to the next character or completes. -/
theorem decodePayloadStepReadsOneSlot : Obligations.DecodePayloadStepReadsOneSlot := by
  intro s hI hp hf he
  refine ⟨_, charAcc_extractBit .., _, hI.step_eq_afterBlockStep (by simp [hp]) hf he, ?_⟩
  rw [afterBlockStep_decPay (s := s.takeEvent) hp]
  refine ⟨fun n => ?_, fun hj => ?_, fun hj hi => ?_, fun hj hi => ?_⟩
  · exact payAt_withCharBits hI.takeEvent _ n
  · exact withCharBits_of_lt (s := s.takeEvent) _ hj
  · rw [withCharBits_of_eighth (s := s.takeEvent) _ hj,
      decodePayloadAdvance_of_next_char (s := s.takeEvent.setPay _ _) hi]
    rfl
  · rw [withCharBits_of_eighth (s := s.takeEvent) _ hj, decodePayloadAdvance_of_last (s := s.takeEvent.setPay _ _) hi]
    rfl

/-! ### What changes a payload entry -/

theorem payAt_encodeHeaderAdvance (s : State) (n : Nat) : (encodeHeaderAdvance s).payAt n = s.payAt n := by
  rw [encodeHeaderAdvance_frame]; rfl

theorem payAt_encodePayloadAdvance (s : State) (n : Nat) : (encodePayloadAdvance s).payAt n = s.payAt n := by
  rw [encodePayloadAdvance_frame]; rfl

theorem payAt_decodeHeaderAdvance (s : State) (n : Nat) : (decodeHeaderAdvance s).payAt n = s.payAt n := by
  rw [decodeHeaderAdvance_frame]; rfl

theorem toNat_charOut_le (acc : Byte) : (charOut acc).toNat ≤ 0xFF := by
  have := acc.isLt
  rw [toNat_charOut]
  omega

/-- A BLOCK step that changes a payload entry is the eighth bit step of that character in a DECODE. -/
theorem afterBlockStep_changes_payAt (hI : s.Inv) (h : s.afterBlockStep.payAt n ≠ s.payAt n) :
    s.phase = .decPay ∧ s.j.val = 7 ∧ n = s.i.val ∧ (s.afterBlockStep.payAt n).toNat ≤ 0xFF := by
  cases hp : s.phase with
  | idle => exact absurd (by rw [afterBlockStep_idle hp]) h
  | encHdr =>
    rw [afterBlockStep_encHdr hp, payAt_encodeHeaderAdvance] at h
    exact absurd rfl h
  | encPay =>
    rw [afterBlockStep_encPay hp, payAt_encodePayloadAdvance] at h
    exact absurd rfl h
  | decHdr =>
    rw [afterBlockStep_decHdr hp, payAt_decodeHeaderAdvance] at h
    exact absurd rfl h
  | decPay =>
    rw [afterBlockStep_decPay hp, payAt_withCharBits hI] at h ⊢
    by_cases hw : s.j.val = 7 ∧ n = s.i.val
    · rw [if_pos hw]
      exact ⟨rfl, hw.1, hw.2, toNat_charOut_le _⟩
    · exact absurd (if_neg hw) h

/-- A host transaction that changes a payload entry is a PayWrite to it on an idle block without a fault
(43_host_interface R168). -/
theorem HostEffect.changes_payAt (hI : s.Inv) (heff : HostEffect s x u) (h : u.payAt n ≠ s.payAt n) :
    ∃ v, x = .payWrite n v ∧ s.ready ∧ n < s.cfg.payDepth ∧ u.payAt n = v := by
  cases heff with
  | @payWrite m v hr hm =>
    rw [payAt_setPay_of_wf hI.pay_wf] at h ⊢
    by_cases hnm : n = m
    · subst hnm
      exact ⟨v, rfl, hr, hm, if_pos rfl⟩
    · exact absurd (if_neg hnm) h
  | startEncode hr hw => rw [encodeStart_frame] at h; exact absurd rfl h
  | startDecode hr hw => rw [decodeStart_frame] at h; exact absurd rfl h
  | _ => exact absurd rfl h

/-- Settles O44: neither the reset nor a BLOCK turn without an enabled step touches PAY, and ENCODE only reads it. -/
theorem payloadChangesOnlyByDecodeOrPayWrite : Obligations.PayloadChangesOnlyByDecodeOrPayWrite := by
  intro s t n hI h hne
  rcases step_cases h with ⟨x, u, he, heff, hfr⟩ | ⟨he, ⟨-, rfl⟩ | ⟨-, hf, hstep⟩⟩ | ⟨-, rfl⟩
  · have hpay : t.payAt n = u.payAt n := by rw [hfr]; rfl
    rw [hpay] at hne ⊢
    obtain ⟨v, rfl, hw⟩ := heff.changes_payAt hI.takeEvent hne
    exact .inl ⟨v, he, hw⟩
  · exact absurd rfl hne
  · rw [hI.takeEvent.phaseStep_eq] at hstep
    cases hstep
    exact .inr ⟨he, hf, afterBlockStep_changes_payAt hI.takeEvent hne⟩
  · exact absurd rfl hne

end Sys2Proof.Machine
end

section
/-! Proofs of the statements of 42_decode on a whole DECODE: what it shows while it runs (R146, R148), its end state
(R149), and the round trip after an ENCODE (R150). -/

namespace Sys2Proof.Machine

variable {s t u : State} {h : Word} {m : Nat}

/-! ### While it runs -/

theorem DecodeAt.phase_ne_idle (hu : DecodeAt s h m u) : u.phase ≠ .idle := by
  rcases hu.place with ⟨-, hp, -⟩ | ⟨-, hp, -⟩ <;> simp [hp]

/-- A running DECODE shows BUSY with RESULT = NONE. -/
theorem DecodeAt.status (hu : DecodeAt s h m u) (hI : s.Inv) (hf : s.fault = false) : u.status = 1#32 := by
  have hfu : u.fault = false := by rw [hu.frame]; exact hf
  have hcu : u.faultCause = .none := by rw [hu.frame]; exact hI.faultCause_of_not_fault hf
  have hru : u.result = .none := by rw [hu.frame]
  rw [status_of_not_fault hfu hcu, hru, busy_iff.2 hu.phase_ne_idle]
  rfl

/-- Settles O19: after fewer than 32 steps, or than 32 + 8h if the header fits, the command is still running, and a
running DECODE leaves the length registers. -/
theorem decodeBusyUntilLastStep : Obligations.DecodeBusyUntilLastStep := by
  intro s m h hI ha hin hspell hm
  have hrunning : ∃ u, run m { s with
      result := .none, k := 0, i := 0, j := 0, hacc := 0, cacc := 0, phase := .decHdr } = .next u ∧
      DecodeAt s h m u := by
    rcases hm with hm | ⟨hm, hL, hn⟩
    · exact run_decode_header hI hspell ha hin hm
    · exact run_decode hI hspell ha hin hL hn hm
  obtain ⟨u, hrun, hu⟩ := hrunning
  refine ⟨_, u, execDecode_of_accepted ha, hrun, hu.status hI ha.1.2, ?_⟩
  rw [hu.frame]
  exact ⟨rfl, rfl, rfl⟩

/-! ### Its end state -/

/-- Until the header is evaluated a DECODE has changed the sequencer, HACC and RESULT only. -/
theorem DecodeAt.header_frame (hu : DecodeAt s h m u) (hm : m < 32) :
    u = { s with result := .none, phase := .decHdr, k := u.k, i := u.i, j := u.j, hacc := u.hacc, cacc := 0 } := by
  rcases hu.place with ⟨-, hp, -, hpay, hc, -⟩ | ⟨hm', -⟩
  · rw [← hp, ← hc, ← hpay]
    exact hu.frame
  · omega

/-- Settles O18: the 32 header steps spell h into HACC and the evaluation takes one of its three ways; a header that
fits leads through 8h payload steps. A rejected DECODE changes RESULT alone. -/
theorem decodeEndState : Obligations.DecodeEndState := by
  constructor
  · intro s hI ha hin h hspell
    refine ⟨_, execDecode_of_accepted ha, ?_⟩
    obtain ⟨u, hrun, hu⟩ := run_decode_evaluate hI hspell ha hin
    have hfr := hu.header_frame (by omega)
    refine ⟨fun h0 => ⟨_, hrun, ?_⟩, fun h0 hbad => ⟨_, hrun, ?_⟩, fun h0 hL hn => ?_⟩
    · rw [decodeHeaderEvaluate_of_zero h0, hfr]
      simp [ha.1.1]
    · have hbad' : u.carLen.toNat < 32 + 8 * h.toNat ∨ u.cfg.payDepth < h.toNat := by rw [hfr]; exact hbad
      rw [decodeHeaderEvaluate_of_not_fits h0 hbad', hfr]
      simp [ha.1.1]
    · have hcount : h.toNat ≠ 0 := fun hz => h0 (BitVec.eq_of_toNat_eq hz)
      obtain ⟨v, hrunv, hframe, -, hpay, hrest⟩ := run_decode_all hI hspell ha hin hL hn (by omega)
      exact ⟨v, hrunv, hframe, hpay, hrest⟩
  · intro s hr hna
    obtain ⟨r, hstart⟩ := decodeStart_of_not_accepted hr hna
    refine ⟨_, exec_decode_of_ready hr, ?_⟩
    rw [hstart]
    exact ⟨hr.1, rfl⟩

/-! ### The round trip -/

/-- The invariant holds after any number of steps. -/
theorem State.Inv.of_run (hI : s.Inv) (hrun : run m s = .next t) : t.Inv := by
  induction m generalizing s with
  | zero => cases hrun; exact hI
  | succ m ih =>
    obtain ⟨u, hu⟩ := stepAlwaysAnswersNext s hI
    rw [run_succ_of_step hu] at hrun
    exact ih (stepKeepsTheInvariant s u hI hu) hrun

theorem State.Inv.of_exec {i : Instr} (hI : s.Inv) (hr : s.ready) (hexec : exec i s = .next t) : t.Inv := by
  rw [exec_of_ready i hr] at hexec
  cases hexec
  exact commandStart_inv i hI hr

/-- A slot gives back the data bit written into it (40_datapath_units R106, R108). -/
theorem getLsbD_zero_of_insert {byte byte' : Byte} {b : Bool}
    (hins : byte' = (byte &&& 0xFE#8) ||| (BitVec.ofBool b).setWidth 8) : byte'.getLsbD 0 = b := by
  rw [hins, ← insertBit_eq_or, insertBit_getLsbD, if_pos rfl]
  simp

/-- An entry that holds bits 7:0 of `c` and nothing above. -/
theorem eq_low_byte_of_getLsbD {x c : CodeUnit} (hx : ∀ b, x.getLsbD b = (decide (b < 8) && c.getLsbD b)) :
    x = (c.setWidth 8).setWidth 16 := by
  refine BitVec.eq_of_getLsbD_eq fun b hb => ?_
  rw [hx, BitVec.getLsbD_setWidth, BitVec.getLsbD_setWidth]
  simp [hb]

/-- A code unit survives the codec exactly when it lies in 0x0000 to 0x00FF. -/
theorem low_byte_eq_self_iff (c : CodeUnit) : (c.setWidth 8).setWidth 16 = c ↔ c.toNat ≤ 0xFF := by
  rw [← BitVec.toNat_inj, BitVec.toNat_setWidth, BitVec.toNat_setWidth]
  have := c.isLt
  omega

/-- Settles O21: ENCODE leaves slots that spell its count, so DECODE ends EMPTY or OK with it; a payload slot gives back
the bit of the character that ENCODE wrote there. -/
theorem decodeAfterEncodeGivesBackThePayload : Obligations.DecodeAfterEncodeGivesBackThePayload := by
  intro s hI ha hin
  obtain ⟨t, u, hexec, hrun, hhdr, hpay, -, -, hframe⟩ := encodeEndState.1 s hI ha hin
  obtain ⟨hr, hd, hn, hL⟩ := ha
  have hcfg : u.cfg = s.cfg := by rw [hframe]
  have hcl : u.carLen = s.carLen := by rw [hframe]
  have hru : u.ready := by rw [hframe]; exact hr
  have hinu : u.inputs = [] := by rw [hframe]; exact hin
  have hIu : u.Inv := (hI.of_exec hr hexec).of_run hrun
  have hau : u.decodeAccepted := ⟨hru, by rw [hcl, hcfg]; exact hd, by rw [hcl]; omega⟩
  have hspell (k : Fin 32) : s.payLen.getLsbD k.val = (u.carAt (u.carLen.toNat - 1 - k.val)).getLsbD 0 := by
    rw [hcl, getLsbD_zero_of_insert (hhdr k)]
  obtain ⟨v, hexecv, hempty, -, hok⟩ := decodeEndState.1 u hIu hau hinu s.payLen hspell
  by_cases h0 : s.payLen = 0#32
  · obtain ⟨w, hrunw, hw⟩ := hempty h0
    have hnone (i : Nat) : ¬ i < s.payLen.toNat := by simp [h0]
    refine ⟨t, u, v, w, hexec, hrun, hexecv, by rw [h0]; exact hrunw, ?_⟩
    rw [hw]
    exact ⟨hru.1, hru.2, h0.symm, h0.symm, rfl, fun _ => rfl, fun hne => absurd h0 hne,
      fun i hi => absurd hi (hnone i), fun i hi => absurd hi (hnone i)⟩
  · obtain ⟨w, hrunw, hw, hbits, -⟩ := hok h0 (by rw [hcl]; exact hL) (by rw [hcfg]; exact hn)
    have hentry (i : Nat) (hi : i < s.payLen.toNat) : w.payAt i = ((s.payAt i).setWidth 8).setWidth 16 := by
      refine eq_low_byte_of_getLsbD fun b => ?_
      rw [hbits i hi, hcl]
      by_cases hb : b < 8
      · rw [getLsbD_zero_of_insert (hpay i hi ⟨b, hb⟩)]
      · simp [hb]
    refine ⟨t, u, v, w, hexec, hrun, hexecv, hrunw, by rw [hw]; exact hru.1, by rw [hw]; exact hru.2, by rw [hw],
      by rw [hw], by rw [hw], fun hz => absurd hz h0, fun _ => by rw [hw], hentry, fun i hi => ?_⟩
    rw [hentry i hi]
    exact low_byte_eq_self_iff _

end Sys2Proof.Machine
end

section
/-! Proof that the schedule of the host's RegReads does not change what the BLOCK steps do (43_host_interface R172,
20_memory R57): a RegRead of a mapped register adds a reply and a BLOCK turn looks at no reply. -/

namespace Sys2Proof.Machine

variable {s : State}

/-! ### A BLOCK turn as a function -/

/-- The state after a BLOCK turn: the enabled BLOCK step, or nothing. -/
def State.afterBlockTurn (s : State) : State := if s.blockEnabled then s.afterBlockStep else s

theorem State.Inv.blockTurn_eq (hI : s.Inv) : blockTurn s = .next s.afterBlockTurn := by
  unfold blockTurn State.afterBlockTurn
  split
  · exact hI.phaseStep_eq
  · rfl

theorem State.Inv.afterBlockTurn (hI : s.Inv) : s.afterBlockTurn.Inv := by
  unfold State.afterBlockTurn
  split
  · exact hI.afterBlockStep
  · exact hI

/-! ### RegRead -/

/-- RegRead of a mapped register returns its value and changes nothing else (43_host_interface R161). -/
theorem hostRegRead_of_mapped {idx : Nat} {v : Word} (h : s.regValue? idx = some v) :
    hostRegRead idx s = answer (.reg idx v) s := by
  rw [hostRegRead, h]

/-- The registers 0 to 4 are mapped (10_state R21). -/
theorem exists_regValue?_of_lt (s : State) {idx : Nat} (h : idx < 5) : ∃ v, s.regValue? idx = some v := by
  cases hv : s.regValue? idx with
  | none => exact absurd (regValue?_eq_none hv) (by omega)
  | some v => exact ⟨v, rfl⟩

/-! ### Steps and runs under given inputs and replies -/

theorem State.Inv.step_withModel_block (hI : s.Inv) (is : List Event) (rs : List Reply) (d : Nat) :
    step (s.withModel (.block :: is) rs d) = .next (s.afterBlockTurn.withModel is rs d) := by
  calc step (s.withModel (.block :: is) rs d)
    _ = blockTurn (s.withModel is rs d) := rfl
    _ = .next (s.afterBlockTurn.withModel is rs d) := by rw [blockTurn_withModel, hI.blockTurn_eq]; rfl

theorem step_withModel_regRead (s : State) {idx : Nat} (h : idx < 5) (is : List Event) (rs : List Reply) (d : Nat) :
    ∃ v, step (s.withModel (.host (.regRead idx) :: is) rs d) = .next (s.withModel is (.reg idx v :: rs) d) := by
  obtain ⟨v, hv⟩ := exists_regValue?_of_lt (s.withModel is rs d) h
  refine ⟨v, ?_⟩
  calc step (s.withModel (.host (.regRead idx) :: is) rs d)
    _ = .next (hostRegRead idx (s.withModel is rs d)) := rfl
    _ = .next (s.withModel is (.reg idx v :: rs) d) := by rw [hostRegRead_of_mapped hv]; rfl

/-- The events a host that only polls lets happen: BLOCK turns and RegReads of mapped registers. -/
def Event.isPolling (e : Event) : Prop := e = .block ∨ ∃ idx, idx < 5 ∧ e = .host (.regRead idx)

/-- A run of BLOCK turns and RegReads of mapped registers does what its BLOCK turns do, but for the replies. -/
theorem State.Inv.run_polling (hI : s.Inv) {es : List Event} (hes : ∀ e ∈ es, e.isPolling) (rest : List Event)
    (rs : List Reply) (d : Nat) :
    ∃ rs', run es.length (s.withModel (es ++ rest) rs d) =
      .next ((State.afterBlockTurn^[es.count .block] s).withModel rest rs' d) := by
  induction es generalizing s rs with
  | nil => exact ⟨rs, rfl⟩
  | cons e es ih =>
    obtain ⟨he, htail⟩ := List.forall_mem_cons.1 hes
    rcases he with rfl | ⟨idx, hidx, rfl⟩
    · obtain ⟨rs', hrun⟩ := ih hI.afterBlockTurn htail rs
      refine ⟨rs', ?_⟩
      rw [List.length_cons, List.cons_append, run_succ_of_step (hI.step_withModel_block ..), hrun,
        List.count_cons_self, Function.iterate_succ_apply]
    · obtain ⟨v, hread⟩ := step_withModel_regRead s hidx (es ++ rest) rs d
      obtain ⟨rs', hrun⟩ := ih hI htail (.reg idx v :: rs)
      refine ⟨rs', ?_⟩
      rw [List.length_cons, List.cons_append, run_succ_of_step hread, hrun, List.count_cons_of_ne (by simp)]

/-- Settles O51: both runs make the same BLOCK turns, so they end in the same block, each with its own replies. -/
theorem regReadScheduleDoesNotMatter : Obligations.RegReadScheduleDoesNotMatter := by
  intro s es rest hI hes
  have hturns : ∀ e ∈ List.replicate (es.count .block) Event.block, e.isPolling := fun e he =>
    .inl (List.eq_of_mem_replicate he)
  obtain ⟨rs, hrun⟩ := hI.run_polling hes rest s.replies s.draws
  obtain ⟨rs', hrun'⟩ := hI.run_polling hturns rest s.replies s.draws
  rw [List.length_replicate, List.count_replicate_self] at hrun'
  exact ⟨_, _, hrun, hrun', rfl⟩

end Sys2Proof.Machine
end

section
/-! Proofs of the statements of 43_host_interface on the halted block (R169) and on one transaction: RegRead (R161),
RegWrite (R163, R164), CarRead and CarWrite (R165, R166), PayRead and PayWrite (R167, R168). -/

namespace Sys2Proof.Machine

variable {s u : State} {x : Transaction}

/-! ### The halted block -/

/-- With FAULT = 1 a host transaction changes at most replies and draws. -/
theorem HostEffect.eq_of_fault (h : HostEffect s x u) (hf : s.fault = true) : u = s := by
  have hnot : ¬ s.fault = false := by simp [hf]
  cases h with
  | quiet => rfl
  | misuse hf' hm => exact absurd hf' hnot
  | carWrite hr ha => exact absurd hr.2 hnot
  | payWrite hr hn => exact absurd hr.2 hnot
  | carLen hr | payLen hr => exact absurd hr.2 hnot
  | startEncode hr hw | startDecode hr hw | illegal hr hw => exact absurd hr.2 hnot

/-- Settles O30: the halt rule stops every host transaction, and a BLOCK step is not enabled. -/
theorem faultedBlockIsHalted : Obligations.FaultedBlockIsHalted := by
  intro s hf hne
  rw [step]
  cases he : s.nextEvent with
  | host x =>
    obtain ⟨t, u, ht, heff, hfr⟩ := transact_effect x s.takeEvent
    rw [heff.eq_of_fault hf] at hfr
    exact ⟨t, ht, hfr⟩
  | block => exact ⟨s.takeEvent, blockTurn_of_not_enabled (s := s.takeEvent) (.inr hf), rfl⟩
  | reset => exact absurd he hne

/-! ### Registers -/

/-- RegRead of an unmapped register raises BAD_REG, which keeps an earlier cause, and draws a value
(43_host_interface R161). -/
theorem hostRegRead_of_unmapped {idx : Nat} (h : 5 ≤ idx) :
    hostRegRead idx s = answerUnspecifiedReg idx (raiseFault .badReg s) := by
  have hnone : s.regValue? idx = none := by
    simp (disch := omega) only [State.regValue?, if_neg]
  rw [hostRegRead, hnone]

/-- Settles O22: five mapped registers, each with its value, and BAD_REG for every other index. -/
theorem regReadReturnsTheRegister : Obligations.RegReadReturnsTheRegister := by
  intro s idx es hin
  rw [step_cons hin, perform, transact]
  refine ⟨?_, ?_, ?_, ?_, ?_, fun h => ?_⟩
  case refine_6 =>
    rw [hostRegRead_of_unmapped h, raiseFault_frame]
    exact ⟨_, rfl⟩
  all_goals
    rintro rfl
    rfl

/-- Settles O5: CMD is register 0, and its write is dispatched by the decoder. -/
theorem stepRunsTheDecodedCommand : Obligations.StepRunsTheDecodedCommand := by
  intro s w i es hin hdec
  rw [step_cons hin, perform, transact, hostRegWrite, if_pos rfl, hostCommandWrite, hdec]

/-- Settles O23: the guard lets the write of a register other than CMD through, whatever its value. -/
theorem configWriteSetsTheRegister : Obligations.ConfigWriteSetsTheRegister := by
  rintro s v idx es ⟨hp, hf⟩ hin
  have hwrite (h : idx ≠ 0) : step s = .next (configWrite idx v { s with inputs := es }) := by
    rw [step_cons hin, perform, transact, hostRegWrite, if_neg h, guarded_of_ready (s := { s with inputs := es }) _ hf hp]
  constructor
  · rintro rfl
    exact hwrite (by decide)
  · rintro rfl
    exact hwrite (by decide)

/-! ### The carrier memory -/

theorem hostCarRead_of_ready {a : Nat} (hr : s.ready) (ha : a < s.cfg.carDepth) :
    hostCarRead a s = answer (.car a (s.carAt a)) s := by
  simp [hostCarRead, hr.1, hr.2, ha]

/-- Any other CarRead is guarded, and returns a drawn value. -/
theorem hostCarRead_of_not_ready {a : Nat} (h : ¬ (s.ready ∧ a < s.cfg.carDepth)) :
    hostCarRead a s = answerUnspecifiedCar a (guarded (raiseFault .badAddr) s) := by
  unfold hostCarRead
  rw [if_neg (by simpa [and_comm, and_assoc] using h)]

/-- Settles O25: the byte is returned in one case only; the guard gives the other three. -/
theorem carReadReturnsTheByte : Obligations.CarReadReturnsTheByte := by
  intro s a es hin
  rw [step_cons hin, perform, transact]
  refine ⟨fun hf => ?_, fun hf hp => ?_, fun hr ha => ?_, fun hr ha => ?_⟩
  · rw [hostCarRead_of_not_ready (by simp [hf]), guarded_of_fault (s := { s with inputs := es }) _ hf]
    exact ⟨_, rfl⟩
  · rw [hostCarRead_of_not_ready (by simp [hp]), guarded_of_busy (s := { s with inputs := es }) _ hf hp]
    exact ⟨_, rfl⟩
  · rw [hostCarRead_of_not_ready (by simp [ha]), guarded_of_ready (s := { s with inputs := es }) _ hr.2 hr.1,
      raiseFault_of_not_fault (s := { s with inputs := es }) _ hr.2]
    exact ⟨_, rfl⟩
  · rw [hostCarRead_of_ready (s := { s with inputs := es }) hr ha]
    rfl

/-- Settles O26: the guard gives the first two cases, and the canonical memory's laws the byte written. -/
theorem carWriteSetsTheByte : Obligations.CarWriteSetsTheByte := by
  intro s a v es hI hin
  rw [step_cons hin, perform, transact, hostCarWrite]
  refine ⟨fun hf => ?_, fun hf hp => ?_, fun hr ha => ?_, fun hr ha => ?_⟩
  · rw [guarded_of_fault (s := { s with inputs := es }) _ hf]
  · rw [guarded_of_busy (s := { s with inputs := es }) _ hf hp]
  · rw [guarded_of_ready (s := { s with inputs := es }) _ hr.2 hr.1, carWriteIdle, if_neg (Nat.not_lt.2 ha),
      raiseFault_of_not_fault (s := { s with inputs := es }) _ hr.2]
  · rw [guarded_of_ready (s := { s with inputs := es }) _ hr.2 hr.1, carWriteIdle, if_pos ha]
    exact ⟨_, rfl, rfl, fun b => carAt_setCar_of_wf hI.car_wf a b v⟩

/-! ### The payload memory -/

theorem hostPayRead_of_ready {n : Nat} (hr : s.ready) (hn : n < s.cfg.payDepth) :
    hostPayRead n s = answer (.pay n (s.payAt n)) s := by
  simp [hostPayRead, hr.1, hr.2, hn]

/-- Any other PayRead is guarded, and returns a drawn value. -/
theorem hostPayRead_of_not_ready {n : Nat} (h : ¬ (s.ready ∧ n < s.cfg.payDepth)) :
    hostPayRead n s = answerUnspecifiedPay n (guarded (raiseFault .badAddr) s) := by
  unfold hostPayRead
  rw [if_neg (by simpa [and_comm, and_assoc] using h)]

/-- Settles O27: the entry is returned in one case only; the guard gives the other three. -/
theorem payReadReturnsTheEntry : Obligations.PayReadReturnsTheEntry := by
  intro s n es hin
  rw [step_cons hin, perform, transact]
  refine ⟨fun hf => ?_, fun hf hp => ?_, fun hr hn => ?_, fun hr hn => ?_⟩
  · rw [hostPayRead_of_not_ready (by simp [hf]), guarded_of_fault (s := { s with inputs := es }) _ hf]
    exact ⟨_, rfl⟩
  · rw [hostPayRead_of_not_ready (by simp [hp]), guarded_of_busy (s := { s with inputs := es }) _ hf hp]
    exact ⟨_, rfl⟩
  · rw [hostPayRead_of_not_ready (by simp [hn]), guarded_of_ready (s := { s with inputs := es }) _ hr.2 hr.1,
      raiseFault_of_not_fault (s := { s with inputs := es }) _ hr.2]
    exact ⟨_, rfl⟩
  · rw [hostPayRead_of_ready (s := { s with inputs := es }) hr hn]
    rfl

/-- Settles O28: the guard gives the first two cases, and the canonical memory's laws the entry written. -/
theorem payWriteSetsTheEntry : Obligations.PayWriteSetsTheEntry := by
  intro s n v es hI hin
  rw [step_cons hin, perform, transact, hostPayWrite]
  refine ⟨fun hf => ?_, fun hf hp => ?_, fun hr hn => ?_, fun hr hn => ?_⟩
  · rw [guarded_of_fault (s := { s with inputs := es }) _ hf]
  · rw [guarded_of_busy (s := { s with inputs := es }) _ hf hp]
  · rw [guarded_of_ready (s := { s with inputs := es }) _ hr.2 hr.1, payWriteIdle, if_neg (Nat.not_lt.2 hn),
      raiseFault_of_not_fault (s := { s with inputs := es }) _ hr.2]
  · rw [guarded_of_ready (s := { s with inputs := es }) _ hr.2 hr.1, payWriteIdle, if_pos hn]
    exact ⟨_, rfl, rfl, fun b => payAt_setPay_of_wf hI.pay_wf n b v⟩

end Sys2Proof.Machine
end

section
/-! Proofs of the statements of 43_host_interface on the end of a run and what is observed there (R171), for the block
alone and with a host program (30_encoding R81). -/

namespace Sys2Proof.Machine

variable {s : State} {p : List HostStmt} {h : HostAgent} {y : HostSystem}

/-! ### When a run has ended -/

/-- Without an event that is a transaction there is no host event. -/
theorem no_transaction_iff (es : List Event) :
    (∀ e ∈ es, e.isTransaction = false) ↔ ∀ x, Event.host x ∉ es := by
  constructor
  · intro hes x hx
    exact absurd (hes _ hx) (by simp)
  · intro hes e he
    cases e with
    | host x => exact absurd he (hes x)
    | block | reset => rfl

/-- Settles O46: a transaction among the inputs is a host event. -/
theorem runHasEndedExactlyWhenIdleUnfaultedWithoutTransaction :
    Obligations.RunHasEndedExactlyWhenIdleUnfaultedWithoutTransaction := by
  intro s
  rw [final_iff, no_transaction_iff]

/-- The host has no next transaction exactly when no number of labels and IFs leads to one (log entry 15). -/
theorem nextTransaction?_eq_none_iff : h.nextTransaction? p = none ↔ ∀ m, (h.passAll p m).pending? p = none := by
  constructor
  · intro hnone m
    cases ht : (h.passAll p m).pending? p with
    | none => rfl
    | some t =>
      rw [nextTransaction?_of_pending ht] at hnone
      cases hnone
  · intro hall
    exact hall p.length

theorem hostSystem_final_iff :
    y.final p = true ↔ y.block.final = true ∧ ∀ m, (y.agent.passAll p m).pending? p = none := by
  rw [HostSystem.final, Bool.and_eq_true, Option.isNone_iff_eq_none, nextTransaction?_eq_none_iff]

/-- Settles O47: the block's part is O46, and the bounded search for the next transaction misses none. -/
theorem hostProgramRunHasEndedExactlyWithoutTransaction :
    Obligations.HostProgramRunHasEndedExactlyWithoutTransaction := by
  intro p y
  rw [hostSystem_final_iff, runHasEndedExactlyWhenIdleUnfaultedWithoutTransaction y.block, and_assoc, and_assoc]

/-! ### After the end -/

theorem final_takeEvent (hs : s.final = true) : s.takeEvent.final = true := by
  obtain ⟨hp, hin, hf⟩ := final_iff.1 hs
  exact final_iff.2 ⟨hp, fun e he => hin e (List.mem_of_mem_tail he), hf⟩

theorem final_assertReset (hs : s.final = true) : (assertReset s).final = true := by
  obtain ⟨-, hin, -⟩ := final_iff.1 hs
  exact final_iff.2 ⟨rfl, hin, rfl⟩

theorem blockTurn_of_final (hs : s.final = true) : blockTurn s = .next s :=
  blockTurn_of_not_enabled (.inl (final_iff.1 hs).1)

/-- Everything a step can do after the end of a run: a BLOCK turn takes its event off the inputs, and a reset resets. -/
theorem step_of_final (hs : s.final = true) :
    (s.nextEvent = .block ∧ step s = .next s.takeEvent) ∨
    (s.nextEvent = .reset ∧ step s = .next (assertReset s.takeEvent)) := by
  cases he : s.nextEvent with
  | block => exact .inl ⟨rfl, (step_block he).trans (blockTurn_of_final (final_takeEvent hs))⟩
  | reset => exact .inr ⟨rfl, by rw [step, he]; rfl⟩
  | host x =>
    have hin := inputs_of_nextEvent (s := s) (by simp [he])
    rw [he] at hin
    have hmem : Event.host x ∈ s.inputs := by rw [hin]; exact List.mem_cons_self
    obtain ⟨-, hnone, -⟩ := (runHasEndedExactlyWhenIdleUnfaultedWithoutTransaction s).1 hs
    exact absurd hmem (hnone x)

/-- Settles O48: the host has no transaction to make, the idle block makes no step, and a reset leaves it idle. -/
theorem hostProgramRunStaysEnded : Obligations.HostProgramRunStaysEnded := by
  intro p y turn hy
  obtain ⟨hblock, hagent⟩ := hostSystem_final_iff.1 hy
  cases turn with
  | host =>
    refine ⟨_, hostTurn_of_not_pending (hagent 0), hostSystem_final_iff.2 ⟨hblock, fun m => ?_⟩, rfl⟩
    exact hagent (m + 1)
  | block =>
    refine ⟨y, ?_, hy, rfl⟩
    have hturn : step { y.block with inputs := .block :: y.block.inputs } = .next y.block := blockTurn_of_final hblock
    simp only [HostSystem.step, HostSystem.perform, hturn]
  | reset => exact ⟨_, rfl, hostSystem_final_iff.2 ⟨final_assertReset hblock, hagent⟩, rfl⟩

/-! ### What is observed -/

/-- Two memories in full are equal exactly when their depths are and every value below the depth is. -/
theorem map_range_eq_iff {α : Type} {m n : Nat} {f g : Nat → α} :
    (List.range m).map f = (List.range n).map g ↔ m = n ∧ ∀ a, a < m → f a = g a := by
  constructor
  · intro heq
    obtain rfl : m = n := by simpa using congrArg List.length heq
    exact ⟨rfl, fun a ha => List.map_inj_left.1 heq a (List.mem_range.2 ha)⟩
  · rintro ⟨rfl, hread⟩
    exact List.map_inj_left.2 fun a ha => hread a (List.mem_range.1 ha)

/-- Settles O49: field by field, and a memory in full is its depth and its value at every place below it. -/
theorem observationIsTheRegistersAndTheMemories : Obligations.ObservationIsTheRegistersAndTheMemories := by
  intro s t
  rw [State.observation, State.observation, Observation.mk.injEq, State.carContents, State.carContents, map_range_eq_iff,
    State.payContents, State.payContents, map_range_eq_iff, and_assoc]

/-- Settles O50, by induction on the number of steps: a BLOCK turn takes one event off, and a reset keeps CAR and PAY. -/
theorem finalStateStays : Obligations.FinalStateStays := by
  intro s hs m
  induction m generalizing s with
  | zero => exact ⟨s, rfl, hs, rfl, rfl, fun _ => ⟨rfl, rfl⟩⟩
  | succ m ih =>
    rcases step_of_final hs with ⟨-, hstep⟩ | ⟨he, hstep⟩
    · obtain ⟨t, hrun, hfin, hcar, hpay, hquiet⟩ := ih _ (final_takeEvent hs)
      refine ⟨t, (run_succ_of_step hstep).trans hrun, hfin, hcar, hpay, fun hno => ?_⟩
      obtain ⟨ht, hobs⟩ := hquiet fun hmem => hno (List.mem_of_mem_tail (by rwa [List.tail_take_eq_take_tail]))
      exact ⟨by rw [ht, takeEvent_inputs, List.drop_tail]; rfl, hobs⟩
    · obtain ⟨t, hrun, hfin, hcar, hpay, -⟩ := ih _ (final_assertReset (final_takeEvent hs))
      refine ⟨t, (run_succ_of_step hstep).trans hrun, hfin, hcar, hpay, fun hno => absurd ?_ hno⟩
      have hin := inputs_of_nextEvent (s := s) (by simp [he])
      rw [hin, he, List.take_succ_cons]
      exact List.mem_cons_self

end Sys2Proof.Machine
end

section
/-! Proofs of the statements of 60_exceptions: the illegal command word (R184), what raises a fault and with which cause
(R185 to R187, R191), and that nothing but reset clears one (R188, R193). -/

namespace Sys2Proof.Machine

variable {s u : State} {x : Transaction}

/-! ### A fault stays -/

theorem nextEvent_ne_reset (hno : ∀ e ∈ s.inputs, e ≠ .reset) : s.nextEvent ≠ .reset := by
  intro he
  have hin := inputs_of_nextEvent (s := s) (by simp [he])
  exact hno s.nextEvent (by rw [hin]; exact List.mem_cons_self) he

/-- A step of the halted block other than the reset keeps the fault and PHASE, and takes one event off the inputs. -/
theorem exists_step_of_fault (hf : s.fault = true) (hne : s.nextEvent ≠ .reset) :
    ∃ t, step s = .next t ∧ t.fault = true ∧ t.faultCause = s.faultCause ∧ t.phase = s.phase ∧
      t.inputs = s.inputs.tail := by
  obtain ⟨t, hstep, hframe⟩ := faultedBlockIsHalted s hf hne
  refine ⟨t, hstep, ?_⟩
  rw [hframe]
  exact ⟨hf, rfl, rfl, rfl⟩

/-- Settles O31, by induction on the number of steps, each of them one of the halted block. -/
theorem onlyResetClearsFault : Obligations.OnlyResetClearsFault := by
  intro m
  induction m with
  | zero =>
    intro s t hf _ hrun
    cases hrun
    exact ⟨hf, rfl, rfl⟩
  | succ m ih =>
    intro s t hf hno hrun
    obtain ⟨u, hstep, hfault, hcause, hphase, hinputs⟩ := exists_step_of_fault hf (nextEvent_ne_reset hno)
    rw [run_succ_of_step hstep] at hrun
    have hrest : ∀ e ∈ u.inputs, e ≠ .reset := fun e he => hno e (List.mem_of_mem_tail (hinputs ▸ he))
    rw [← hcause, ← hphase]
    exact ih u t hfault hrest hrun

/-! ### What raises a fault -/

/-- A host transaction that raises a fault is a misuse, and records its cause. -/
theorem HostEffect.misuse_of_fault (h : HostEffect s x u) (hs : s.fault = false) (hu : u.fault = true) :
    HostMisuse s x u.faultCause := by
  have hquiet (hsame : u.fault = s.fault) : HostMisuse s x u.faultCause := by
    rw [hsame, hs] at hu
    cases hu
  cases h with
  | misuse _ hm => exact hm
  | startEncode => exact hquiet (by rw [encodeStart_frame])
  | startDecode => exact hquiet (by rw [decodeStart_frame])
  | quiet | carWrite | payWrite | carLen | payLen | illegal => exact hquiet rfl

/-- The misuses, cause by cause (60_exceptions R185 to R187). -/
theorem HostMisuse.cases_cause {c : FaultCause} (h : HostMisuse s x c) :
    (c = .hazard ∧ s.phase ≠ .idle ∧ ∀ idx, x ≠ .regRead idx) ∨
    (c = .badReg ∧ ((∃ idx, x = .regRead idx ∧ 5 ≤ idx) ∨
      (s.phase = .idle ∧ ∃ idx v, x = .regWrite idx v ∧ (idx = 1 ∨ 4 ≤ idx)))) ∨
    (c = .badAddr ∧ s.phase = .idle ∧
      ((∃ a, s.cfg.carDepth ≤ a ∧ (x = .carRead a ∨ ∃ v, x = .carWrite a v)) ∨
       (∃ n, s.cfg.payDepth ≤ n ∧ (x = .payRead n ∨ ∃ v, x = .payWrite n v)))) := by
  cases h with
  | hazard hb hx => exact .inl ⟨rfl, hb, hx⟩
  | badRead hidx => exact .inr (.inl ⟨rfl, .inl ⟨_, rfl, hidx⟩⟩)
  | badWrite hp hidx => exact .inr (.inl ⟨rfl, .inr ⟨hp, _, _, rfl, hidx⟩⟩)
  | carRead hp ha => exact .inr (.inr ⟨rfl, hp, .inl ⟨_, ha, .inl rfl⟩⟩)
  | carWrite hp ha => exact .inr (.inr ⟨rfl, hp, .inl ⟨_, ha, .inr ⟨_, rfl⟩⟩⟩)
  | payRead hp hn => exact .inr (.inr ⟨rfl, hp, .inr ⟨_, hn, .inl rfl⟩⟩)
  | payWrite hp hn => exact .inr (.inr ⟨rfl, hp, .inr ⟨_, hn, .inr ⟨_, rfl⟩⟩⟩)

/-- Settles O33: neither a BLOCK turn nor the reset sets FAULT, and a host transaction sets it by a misuse alone. -/
theorem faultOnlyByHostMisuse : Obligations.FaultOnlyByHostMisuse := by
  intro s t hstep hs ht
  have hnot : ¬ s.fault = true := by simp [hs]
  rcases step_cases hstep with ⟨x, u, he, heff, hframe⟩ | ⟨-, ⟨-, rfl⟩ | ⟨-, -, hphase⟩⟩ | ⟨-, rfl⟩
  · rw [hframe] at ht ⊢
    refine ⟨x, s.inputs.tail, ?_, (heff.misuse_of_fault hs ht).cases_cause⟩
    rw [← he]
    exact inputs_of_nextEvent (by simp [he])
  · exact absurd ht hnot
  · obtain ⟨hfault, -⟩ := phaseStep_fault_eq hphase
    exact absurd (hfault ▸ ht) hnot
  · cases ht

/-! ### Illegal command words -/

/-- A word that is the encoding of no command is illegal (30_encoding R72). -/
theorem exists_decode_eq_illegal {w : Word} (h : ∀ i, w ≠ encode i) : ∃ r, decode w = .illegal r := by
  cases hdec : decode w with
  | command i => exact absurd ((decode_eq_command_iff w i).1 hdec) (h i)
  | illegal r => exact ⟨r, rfl⟩

/-- Settles O4: the word encodes no command, so the decoder answers illegal, and the guard lets the write through. -/
theorem illegalWordSetsResultOnly : Obligations.IllegalWordSetsResultOnly := by
  rintro s w es ⟨hp, hf⟩ hin henc hdec
  obtain ⟨r, hillegal⟩ := exists_decode_eq_illegal (w := w) fun i => by
    cases i with
    | encode => exact henc
    | decode => exact hdec
  rw [step_cons hin, perform, transact, hostRegWrite, if_pos rfl, hostCommandWrite, hillegal]
  exact congrArg Host.Outcome.next (guarded_of_ready (s := { s with inputs := es }) illegalCommand hf hp)

/-! ### Register accesses that fault -/

/-- Every RegWrite goes through the guard, a command word's too (43_host_interface R162). -/
theorem hostRegWrite_eq_guarded (idx : Nat) (v : Word) (s : State) :
    ∃ act, hostRegWrite idx v s = .next (guarded act s) := by
  unfold hostRegWrite
  split
  · unfold hostCommandWrite
    cases decode v with
    | command i =>
      cases i with
      | encode => exact ⟨encodeStart, rfl⟩
      | decode => exact ⟨decodeStart, rfl⟩
    | illegal r => exact ⟨illegalCommand, rfl⟩
  · exact ⟨configWrite idx v, rfl⟩

theorem hostRegWrite_of_busy (idx : Nat) (v : Word) (hf : s.fault = false) (hp : s.phase ≠ .idle) :
    hostRegWrite idx v s = .next { s with fault := true, faultCause := .hazard } := by
  obtain ⟨act, hact⟩ := hostRegWrite_eq_guarded idx v s
  rw [hact, guarded_of_busy act hf hp]

/-- RegWrite of a read-only or unmapped register on an idle block (60_exceptions R186). -/
theorem hostRegWrite_of_not_writable {idx : Nat} (v : Word) (hr : s.ready) (hidx : idx = 1 ∨ 4 ≤ idx) :
    hostRegWrite idx v s = .next { s with fault := true, faultCause := .badReg } := by
  rw [hostRegWrite, if_neg (by omega), guarded_of_ready _ hr.2 hr.1, configWrite, if_neg (by omega), if_neg (by omega),
    raiseFault_of_not_fault _ hr.2]

/-- Settles O24: O22 gives the read, and the guard puts the hazard check before the write's own. -/
theorem badRegisterAccessFaults : Obligations.BadRegisterAccessFaults := by
  intro s idx v es hf
  refine ⟨fun hin hidx => ?_, fun hin hidx hp => ?_, fun hin hp => ?_⟩
  · obtain ⟨-, -, -, -, -, hunmapped⟩ := regReadReturnsTheRegister s idx es hin
    simpa [hf] using hunmapped hidx
  · rw [step_cons hin]
    exact hostRegWrite_of_not_writable (s := { s with inputs := es }) v ⟨hp, hf⟩ (by omega)
  · rw [step_cons hin]
    exact hostRegWrite_of_busy (s := { s with inputs := es }) idx v hf hp

/-! ### The hazard -/

/-- Settles O29: every transaction but RegRead is guarded, and the guard answers HAZARD in place of what it does. -/
theorem transactionWhileBusyRaisesHazard : Obligations.TransactionWhileBusyRaisesHazard := by
  intro s x es hp hf hin hx
  have hguard (act : State → State) := guarded_of_busy (s := { s with inputs := es }) act hf hp
  cases x with
  | regRead idx => exact absurd rfl (hx idx)
  | regWrite idx v =>
    exact ⟨_, (step_cons hin).trans (hostRegWrite_of_busy (s := { s with inputs := es }) idx v hf hp), rfl, by simp⟩
  | carWrite a v =>
    exact ⟨_, (step_cons hin).trans (congrArg Host.Outcome.next (hguard (carWriteIdle a v))), rfl, by simp⟩
  | payWrite n v =>
    exact ⟨_, (step_cons hin).trans (congrArg Host.Outcome.next (hguard (payWriteIdle n v))), rfl, by simp⟩
  | carRead a =>
    obtain ⟨-, hbusy, -⟩ := carReadReturnsTheByte s a es hin
    obtain ⟨v, hstep⟩ := hbusy hf hp
    exact ⟨_, hstep, rfl, by simp⟩
  | payRead n =>
    obtain ⟨-, hbusy, -⟩ := payReadReturnsTheEntry s n es hin
    obtain ⟨v, hstep⟩ := hbusy hf hp
    exact ⟨_, hstep, rfl, by simp⟩

end Sys2Proof.Machine
end

section
/-! Proof of the statement of 70_reset_and_hazards on a reset in the middle of an ENCODE (R211): the reset leaves the
carrier of the running command, whose slots are here addressed by their offset. -/

namespace Sys2Proof.Machine

variable {s : State}

/-- The data bit of the slot that stands at offset `a`: a header bit in the top 32 bytes of the carrier, a character bit
below them. -/
theorem slotBit_at_offset {a : Nat} (ha : a < s.carLen.toNat) :
    s.slotBit (s.carLen.toNat - 1 - a) =
      if s.carLen.toNat ≤ a + 32 then s.payLen.getLsbD (s.carLen.toNat - 1 - a)
      else (s.payAt ((s.carLen.toNat - 33 - a) / 8)).getLsbD ((s.carLen.toNat - 33 - a) % 8) := by
  have hheader : s.carLen.toNat - 1 - a < 32 ↔ s.carLen.toNat ≤ a + 32 := by omega
  have hpayload : s.carLen.toNat - 1 - a - 32 = s.carLen.toNat - 33 - a := by omega
  simp only [State.slotBit, hheader, hpayload]

theorem status_assertReset (s : State) : (assertReset s).status = 0#32 := status_powerOn s.cfg

/-- The step on the reset input, with no input after it. -/
theorem step_reset (s : State) : step { s with inputs := [.reset] } = .next (assertReset { s with inputs := [] }) :=
  rfl

/-- Settles O38: after m steps the first m slots are written, and the reset keeps the carrier. -/
theorem resetDuringEncodeKeepsTheSlotsWritten : Obligations.ResetDuringEncodeKeepsTheSlotsWritten := by
  intro s m hI ha hin hm
  obtain ⟨u, hrun, hu⟩ := run_encode hI ha hin hm
  refine ⟨_, u, _, execEncode_of_accepted ha, hrun, step_reset u, status_assertReset _, rfl, rfl, rfl, fun a => ?_⟩
  have hcar : (assertReset { u with inputs := [] }).carAt a = s.carAfter m a := hu.car a
  rw [hcar, State.carAfter]
  split
  next hslot => rw [insertBit_eq_or, slotBit_at_offset hslot.1]
  next => rfl

end Sys2Proof.Machine
end
